-- ==== Sys2Proof/Word.lean ====
section
/-! DEFINITION. The word types of the LS-8 core: a byte (R5, R7) and the 9-bit word of pc and sp (R23, R25). -/

namespace Sys2Proof

/-- A byte: a RAM cell, a register, an opcode or an operand (R5 `CELL_WIDTH`, `REG_WIDTH`; R7). -/
abbrev Byte := BitVec 8

/-- The 9-bit word that `pc` (R23) and `sp` (R25) hold. The spec uses the values 0..256 of it;
`State.Inv` says so (log entry 11). -/
abbrev Word9 := BitVec 9

end Sys2Proof
end

