-- ==== Sys2Proof/Config.lean ====
section
/-! DEFINITION. What the implementation fixes: the parameters of 00_scope.md R5. -/

namespace Sys2Proof

/-- R5 `MEM_SIZE`: the number of RAM cells. -/
abbrev Config.memSize : Nat := 256

/-- R5 `NUM_REGS`: the number of general registers. -/
abbrev Config.numRegs : Nat := 8

/-- R5 `MEM_FILL`, R52, D10: what a cell reads as that neither the loader nor a PUSH has written. -/
abbrev Config.memFill : Byte := 0

/-- R176, D25, U12: the text the host prints for a halt notice, which the source does not give.
A free value: nothing says what it is (log entry 14). -/
opaque Config.haltNoticeText : String

/-- R26, R27: the flag set, three booleans with no register layout. -/
structure Flags where
  /-- E (equal) -/
  e : Bool
  /-- L (less-than) -/
  l : Bool
  /-- G (greater-than) -/
  g : Bool
  deriving DecidableEq, Repr

/-- R5 `ARITH_OVERFLOW`, D2: what ADD, SUB and MUL do when the exact result leaves 0..255. -/
inductive ArithOverflow where
  /-- results modulo 256 (R117), the default -/
  | wrap
  /-- ArithmeticOverflow is raised instead (R118) -/
  | fault
  deriving DecidableEq, Repr

/-- The parameters of R5 that the rules name and a machine may take as arguments (log entry 2). -/
structure Params where
  /-- `ARITH_OVERFLOW` (D2) -/
  arithOverflow : ArithOverflow
  /-- `STACK_FLOOR`: the lowest address PUSH may write (R140, D7) -/
  stackFloor : Nat
  /-- `SP_EMPTY`: what `sp` holds when the stack is empty (R25, D6) -/
  spEmpty : Word9
  /-- `REG_INIT`: every register after a load (R34, D8) -/
  regInit : Byte
  /-- `FLAGS_INIT`: the flags after a load (R26, D9) -/
  flagsInit : Flags
  /-- `TRACE_ENABLE`: whether the trace port gives its samples (R178) -/
  traceEnable : Bool
  deriving DecidableEq, Repr

/-- The defaults of R5. -/
def Params.default : Params where
  arithOverflow := .wrap
  stackFloor := 0
  spEmpty := 256
  regInit := 0
  flagsInit := { e := false, l := false, g := false }
  traceEnable := false

end Sys2Proof
end

