-- ==== Sys2Proof/Machine/Flags.lean ====
section
/-! DEFINITION. The one flag computation of the core: CMP's (41_alu.md R115). -/

namespace Sys2Proof.Machine

/-- R115: exactly one of E, L, G, by unsigned comparison. -/
def compareFlags (u v : Byte) : Flags :=
  if u.toNat = v.toNat then { e := true, l := false, g := false }
  else if u.toNat < v.toNat then { e := false, l := true, g := false }
  else { e := false, l := false, g := true }

end Sys2Proof.Machine
end

