-- ==== Sys2Proof/Syntax.lean ====
section
/-! DEFINITION. The fourteen instructions of the LS-8 core (30_encoding.md R76), one constructor per row of the opcode table. -/

namespace Sys2Proof

/-- An instruction with the operand bytes it declares (R70, R71). A register operand is the whole byte, since a value of
8 or more is a fault of the instruction and not an illegal encoding (R72, R78, R94); log entry 12. -/
inductive Instr where
  /-- HLT, format N (R130) -/
  | hlt
  /-- LDI ra, imm8, format RI (R131) -/
  | ldi (ra imm : Byte)
  /-- PRN ra, format R (R132) -/
  | prn (ra : Byte)
  /-- PUSH ra, format R (R140) -/
  | push (ra : Byte)
  /-- POP ra, format R (R141) -/
  | pop (ra : Byte)
  /-- JMP addr, format A (R150) -/
  | jmp (addr : Byte)
  /-- JEQ ra, format R (R151) -/
  | jeq (ra : Byte)
  /-- JNE ra, format R (R152) -/
  | jne (ra : Byte)
  /-- CMP ra, rb, format RR (R115) -/
  | cmp (ra rb : Byte)
  /-- ADD ra, rb, format RR (R110) -/
  | add (ra rb : Byte)
  /-- SUB ra, rb, format RR (R111) -/
  | sub (ra rb : Byte)
  /-- MUL ra, rb, format RR (R112) -/
  | mul (ra rb : Byte)
  /-- DIV ra, rb, format RR (R113) -/
  | div (ra rb : Byte)
  /-- MOD ra, rb, format RR (R114) -/
  | mod (ra rb : Byte)
  deriving DecidableEq, Repr

end Sys2Proof
end

