-- ==== Sys2Proof/Decode.lean ====
section
/-! DEFINITION. The dispatch table, the decoder and the encoder (30_encoding.md R70 to R79). -/

namespace Sys2Proof

/-- The mnemonics of the dispatch table (R74: one case per mnemonic). -/
inductive Opcode where
  | hlt | ldi | prn | push | pop | jmp | jeq | jne | cmp | add | sub | mul | div | mod
  deriving DecidableEq, Repr

/-- The five formats of R71. -/
inductive Format where
  | n | r | a | ri | rr
  deriving DecidableEq, Repr

/-- R71: the width of each format, in bytes. -/
def Format.width : Format → Nat
  | .n => 1
  | .r => 2
  | .a => 2
  | .ri => 3
  | .rr => 3

/-- R76: the opcode byte of each mnemonic. LDI, PRN and HLT are the source's (R75), the others the standard LS-8
assignment the spec adopts (D5; log entry 1). -/
def Opcode.byte : Opcode → Byte
  | .hlt => 0b00000001
  | .ldi => 0b10000010
  | .prn => 0b01000111
  | .push => 0b01000101
  | .pop => 0b01000110
  | .jmp => 0b01010100
  | .jeq => 0b01010101
  | .jne => 0b01010110
  | .cmp => 0b10100111
  | .add => 0b10100000
  | .sub => 0b10100001
  | .mul => 0b10100010
  | .div => 0b10100011
  | .mod => 0b10100100

/-- R71, R76: the format of each mnemonic. -/
def Opcode.format : Opcode → Format
  | .hlt => .n
  | .ldi => .ri
  | .prn | .push | .pop | .jeq | .jne => .r
  | .jmp => .a
  | .cmp | .add | .sub | .mul | .div | .mod => .rr

/-- R76: the width of each mnemonic's instruction. -/
def Opcode.width (o : Opcode) : Nat := o.format.width

/-- The mnemonics in the order of R76. -/
def Opcode.all : List Opcode :=
  [.hlt, .ldi, .prn, .push, .pop, .jmp, .jeq, .jne, .cmp, .add, .sub, .mul, .div, .mod]

/-- R74: the dispatch table, a total map from opcode bytes to an entry or NONE. -/
def dispatch (op : Byte) : Option Opcode := Opcode.all.find? (fun o => o.byte == op)

/-- The instruction of a dispatch entry with operand bytes `a` and `b`; an operand the entry does not declare
has no effect (R73, R93). -/
def Opcode.instr : Opcode → Byte → Byte → Instr
  | .hlt, _, _ => .hlt
  | .ldi, a, b => .ldi a b
  | .prn, a, _ => .prn a
  | .push, a, _ => .push a
  | .pop, a, _ => .pop a
  | .jmp, a, _ => .jmp a
  | .jeq, a, _ => .jeq a
  | .jne, a, _ => .jne a
  | .cmp, a, b => .cmp a b
  | .add, a, b => .add a b
  | .sub, a, b => .sub a b
  | .mul, a, b => .mul a b
  | .div, a, b => .div a b
  | .mod, a, b => .mod a b

/-- Why bytes are no instruction. -/
inductive DecodeError where
  /-- there is no opcode byte (R91: the fetch itself is past the top) -/
  | noOpcode
  /-- the opcode byte has no dispatch entry (R78, R92) -/
  | invalidOpcode (op : Byte)
  /-- the declared operand byte number `k` (1 or 2) is not there (R93) -/
  | missingOperand (op : Byte) (k : Nat)
  deriving DecidableEq, Repr

/-- R92, R93: decode an instruction from the bytes at its address, total on any bytes, with the bytes left over.
The opcode byte alone gives the width (R79). -/
def decode (bytes : List Byte) : Except DecodeError (Instr × List Byte) :=
  match bytes with
  | [] => .error .noOpcode
  | op :: rest =>
    match dispatch op with
    | none => .error (.invalidOpcode op)
    | some o =>
      match o.format, rest with
      | .n, _ => .ok (o.instr 0 0, rest)
      | .r, a :: rest' | .a, a :: rest' => .ok (o.instr a 0, rest')
      | .r, [] | .a, [] => .error (.missingOperand op 1)
      | .ri, a :: b :: rest' | .rr, a :: b :: rest' => .ok (o.instr a b, rest')
      | .ri, [_] | .rr, [_] => .error (.missingOperand op 2)
      | .ri, [] | .rr, [] => .error (.missingOperand op 1)

/-- The mnemonic of an instruction. -/
def Instr.opcode : Instr → Opcode
  | .hlt => .hlt
  | .ldi _ _ => .ldi
  | .prn _ => .prn
  | .push _ => .push
  | .pop _ => .pop
  | .jmp _ => .jmp
  | .jeq _ => .jeq
  | .jne _ => .jne
  | .cmp _ _ => .cmp
  | .add _ _ => .add
  | .sub _ _ => .sub
  | .mul _ _ => .mul
  | .div _ _ => .div
  | .mod _ _ => .mod

/-- R71: the operand bytes of an instruction, in address order. -/
def Instr.operands : Instr → List Byte
  | .hlt => []
  | .ldi ra imm => [ra, imm]
  | .prn ra => [ra]
  | .push ra => [ra]
  | .pop ra => [ra]
  | .jmp addr => [addr]
  | .jeq ra => [ra]
  | .jne ra => [ra]
  | .cmp ra rb => [ra, rb]
  | .add ra rb => [ra, rb]
  | .sub ra rb => [ra, rb]
  | .mul ra rb => [ra, rb]
  | .div ra rb => [ra, rb]
  | .mod ra rb => [ra, rb]

/-- R71: the bytes of an instruction at ascending addresses (R53): the opcode byte, then the operands. -/
def encode (i : Instr) : List Byte := i.opcode.byte :: i.operands

/-- The longest instruction, three bytes, from the number `w` of `nbits` bits whose byte `k` is bits `8k+7..8k`;
every bit above `nbits` is 0. -/
def tableWordBytes (nbits w : Nat) : List Byte :=
  let v := w % 2 ^ nbits
  [BitVec.ofNat 8 v, BitVec.ofNat 8 (v / 256), BitVec.ofNat 8 (v / 65536)]

/-- What the decoder reads from an instruction whose bits are numbered as the opcode table numbers them. -/
def decodeTableWord (nbits w : Nat) : Option Instr :=
  match decode (tableWordBytes nbits w) with
  | .ok (i, _) => some i
  | .error _ => none

end Sys2Proof
end

