-- ==== Sys2Proof/Machine/State.lean ====
section
/-! DEFINITION. Everything the spec gives the machine to hold (10_state.md), as plain data, and its value after reset (R34). -/

namespace Sys2Proof.Machine

/-- R29, R90: the two states of the core; `halted` is terminal. -/
inductive Status where
  | running
  | halted
  deriving DecidableEq, Repr

/-- R160: the fault kinds. -/
inductive FaultKind where
  /-- a fetched byte with no dispatch entry (R161) -/
  | invalidOpcode
  /-- DIV or MOD with a divisor register of 0 (R162) -/
  | divisionByZero
  /-- PUSH below `STACK_FLOOR` (R165) -/
  | stackOverflow
  /-- POP of an empty stack (R165) -/
  | stackUnderflow
  /-- raised by nothing in this core (R99, R167) -/
  | unsupportedOperation
  /-- an address of 256 or more at the address decoder (R51, R164) -/
  | addressOutOfRange
  /-- a register operand byte of 8 or more (R163) -/
  | invalidRegister
  /-- ADD, SUB or MUL leaving 0..255 under `ARITH_OVERFLOW` = `fault` (R168) -/
  | arithmeticOverflow
  /-- the loader's error, before any cycle (R195) -/
  | loadError
  deriving DecidableEq, Repr

/-- What a LoadError records (R160 row 9, R195). -/
inductive LoadFailure where
  /-- the failing line of the listing -/
  | badLine (text : List Char)
  /-- more bytes than memory holds: how many were supplied -/
  | byteCount (n : Nat)
  deriving DecidableEq, Repr

/-- R30: the report FAULT(kind, p, opcode, a, b, addr). An absent field is `none`; which fields a kind records is the
column "recorded" of R160. -/
structure FaultReport where
  kind : FaultKind
  /-- the address of the faulting instruction's opcode byte -/
  p : Option Word9 := none
  /-- the opcode byte, absent when the fetch itself faulted -/
  opcode : Option Byte := none
  /-- operand byte a -/
  a : Option Byte := none
  /-- operand byte b -/
  b : Option Byte := none
  /-- the offending address of AddressOutOfRange -/
  addr : Option Nat := none
  /-- what a LoadError records -/
  load : Option LoadFailure := none
  deriving DecidableEq, Repr

/-- R30: the halt report. -/
inductive HaltReason where
  /-- NONE, while RUNNING -/
  | none
  /-- CLEAN: HLT executed -/
  | clean
  /-- FAULT(...) -/
  | fault (r : FaultReport)
  deriving DecidableEq, Repr

/-- R32: the events of the output stream. -/
inductive Event where
  /-- Out(v), from PRN -/
  | out (v : Byte)
  /-- HaltNotice, from HLT -/
  | haltNotice
  deriving DecidableEq, Repr

/-- R178: what the trace port gives for one cycle. A byte at an address of 256 or more is absent (D26). -/
structure TraceRecord where
  pc : Word9
  byte0 : Option Byte
  byte1 : Option Byte
  byte2 : Option Byte
  regs : Vector Byte 8
  deriving DecidableEq, Repr

/-- The RAM as data: pairs of an address and the byte there, in the canonical form `Memory.wf` (Machine/Ops.lean);
an address not listed reads as `Config.memFill` (R52; log entry 16). -/
abbrev Memory := List Host.Cell

/-- The state of the core: R20 (regs), R23 (pc), R25 (sp), R26 (flags), R29 (status), R30 (haltReason), R31 (mem), R32 (output).
`trace` is what the trace port has given (R178) and `params` the machine's parameters (R5): the model's own fields, log entries 5 and 2. -/
structure State where
  /-- r0 to r7 -/
  regs : Vector Byte 8
  pc : Word9
  sp : Word9
  flags : Flags
  status : Status
  haltReason : HaltReason
  mem : Memory
  /-- oldest first -/
  output : List Event
  /-- oldest first -/
  trace : List TraceRecord
  params : Params
  deriving DecidableEq, Repr

/-- The reasons for Host.Outcome.fault: NONE. Every fault of the spec is a fatal condition whose effect R166 describes
(HALTED with a report), so it is a next state, and nothing raises a Fault; safe, as no behaviour is cut off (log entry 3). -/
inductive Fault where
  deriving DecidableEq, Repr

/-- The reasons for Host.Outcome.refused. -/
inductive Refusal where
  /-- An instruction with no meaning yet, answered by its arm of `exec` alone; safe. No arm answers it in this model. -/
  | notModelled (mnemonic : String)
  deriving DecidableEq, Repr

/-- R34: the core right after reset with no program loaded (a load of zero bytes), under the default parameters of R5. -/
def State.reset : State where
  regs := Vector.replicate 8 0
  pc := 0
  sp := 256
  flags := { e := false, l := false, g := false }
  status := .running
  haltReason := .none
  mem := []
  output := []
  trace := []
  params := Params.default

end Sys2Proof.Machine
end

