-- ==== Sys2Proof/Machine/Ops.lean ====
section
/-! DEFINITION. The shared operations over memory, registers, the output stream and the control state; raising a fault;
fetching an instruction; the trace sample. -/

namespace Sys2Proof.Machine

/-- R52: the byte in cell `addr`, `MEM_FILL` where none is listed. -/
def Memory.read (m : Memory) (addr : Nat) : Byte :=
  match m with
  | [] => Config.memFill
  | c :: cs => if c.1 = addr then c.2 else Memory.read cs addr

/-- The memory with no entry at `addr`. -/
def Memory.erase (m : Memory) (addr : Nat) : Memory := m.filter (fun c => c.1 != addr)

/-- The memory with the entry `(addr, v)` in its place. -/
def Memory.insert (m : Memory) (addr : Nat) (v : Byte) : Memory :=
  match m with
  | [] => [(addr, v)]
  | c :: cs =>
    if addr < c.1 then (addr, v) :: c :: cs
    else if addr = c.1 then (addr, v) :: cs
    else c :: Memory.insert cs addr v

/-- R52: cell `addr` <- `v`. Writing `MEM_FILL` removes the entry, so that equal memories are equal lists. -/
def Memory.write (m : Memory) (addr : Nat) (v : Byte) : Memory :=
  if v = Config.memFill then Memory.erase m addr else Memory.insert m addr v

/-- The canonical form: addresses rise strictly, lie in 0..255 (R50), and no entry equals `MEM_FILL`. -/
abbrev Memory.wf (m : Memory) : Prop :=
  m.Pairwise (fun c d => c.1 < d.1) ∧ ∀ c ∈ m, c.1 < Config.memSize ∧ c.2 ≠ Config.memFill

/-- R51: an address in 0..255 selects its cell, any other selects none. -/
def addressDecodes (addr : Nat) : Bool := addr < Config.memSize

/-- R51, R52: MemRead(addr, 1); `none` where the address decoder selects no cell. -/
def memRead (s : State) (addr : Nat) : Option Byte :=
  if addressDecodes addr then some (s.mem.read addr) else none

/-- R51, R52: MemWrite(addr, 1, v); `none` where the address decoder selects no cell. -/
def memWrite (s : State) (addr : Nat) (v : Byte) : Option State :=
  if addressDecodes addr then some { s with mem := s.mem.write addr v } else none

/-- R8: `x[i]`. -/
def readReg (s : State) (r : Fin 8) : Byte := s.regs[r]

/-- R8: `x[i] <- v`. -/
def writeReg (s : State) (r : Fin 8) (v : Byte) : State := { s with regs := s.regs.set r v }

/-- R96 (a): `pc <- p + w`, on the 9-bit pc. -/
def advance (w : Nat) (s : State) : State := { s with pc := s.pc + BitVec.ofNat 9 w }

/-- R96 (b): `pc <- target`, for a target byte (`zext_9`, R7). -/
def jump (target : Byte) (s : State) : State := { s with pc := target.setWidth 9 }

/-- R8, R32: append an event to the output stream. -/
def emit (e : Event) (s : State) : State := { s with output := s.output ++ [e] }

/-- R166: `raise K(info)`. The status and the halt report change and nothing else. -/
def raise (r : FaultReport) (s : State) : State :=
  { s with status := .halted, haltReason := .fault r }

/-- R30, R160: the report of a fault of the instruction at `pc` whose opcode byte is `o`'s, with the operand bytes it declares. -/
def instrReport (kind : FaultKind) (o : Opcode) (a b : Option Byte) (s : State) : FaultReport :=
  { kind := kind, p := some s.pc, opcode := some o.byte, a := a, b := b }

/-- R164: the report of an access at `addr` that selects no cell. It records `p`, the opcode if it was fetched, and the
address, and no operand (log entry 7). -/
def addressReport (opcode : Option Byte) (addr : Nat) (s : State) : FaultReport :=
  { kind := .addressOutOfRange, p := some s.pc, opcode := opcode, addr := some addr }

/-- R92, R93: the bytes at `pc`, `pc + 1` and `pc + 2` that exist. Reading one an instruction does not declare is
unobservable (R52, R93). -/
def candidateBytes (s : State) : List Byte :=
  [s.pc.toNat, s.pc.toNat + 1, s.pc.toNat + 2].filterMap (memRead s)

/-- R91 to R93: the instruction at `pc`, or the report of the cycle's own fault, in the order of R169 (1) to (3). -/
def fetch (s : State) : Except FaultReport Instr :=
  match decode (candidateBytes s) with
  | .ok (i, _) => .ok i
  | .error .noOpcode => .error (addressReport none s.pc.toNat s)
  | .error (.invalidOpcode op) => .error { kind := .invalidOpcode, p := some s.pc, opcode := some op }
  | .error (.missingOperand op k) => .error (addressReport (some op) (s.pc.toNat + k) s)

/-- R178: what the trace port shows of a state. -/
def traceSample (s : State) : TraceRecord where
  pc := s.pc
  byte0 := memRead s s.pc.toNat
  byte1 := memRead s (s.pc.toNat + 1)
  byte2 := memRead s (s.pc.toNat + 2)
  regs := s.regs

/-- R178, D26: the trace port's sample at the start of a cycle, given only when `TRACE_ENABLE` is on. -/
def sampleTrace (s : State) : State :=
  { s with trace := if s.params.traceEnable then s.trace ++ [traceSample s] else s.trace }

end Sys2Proof.Machine
end

