-- ==== Sys2Proof/Machine/Operands.lean ====
section
/-! DEFINITION. The operand forms of R72: register operands validated as R94 says, and the address of the top of the stack. -/

namespace Sys2Proof.Machine

/-- R21, R72: the register an operand byte names, if it is in 0..7. -/
def regIndex (v : Byte) : Option (Fin 8) :=
  if h : v.toNat < 8 then some ⟨v.toNat, h⟩ else none

/-- R94 for one register operand `a`: the handler on its register, or InvalidRegister(p, op, a, b) before the handler runs.
`b` is the second operand byte where the instruction declares one. -/
def withReg (o : Opcode) (a : Byte) (b : Option Byte) (s : State) (handler : Fin 8 → State) : State :=
  match regIndex a with
  | some ra => handler ra
  | none => raise (instrReport .invalidRegister o (some a) b s) s

/-- R94 for two register operands, `ra` before `rb`. -/
def withRegs (o : Opcode) (a b : Byte) (s : State) (handler : Fin 8 → Fin 8 → State) : State :=
  withReg o a (some b) s fun ra =>
    match regIndex b with
    | some rb => handler ra rb
    | none => raise (instrReport .invalidRegister o (some a) (some b) s) s

/-- R140: the stack pointer after PUSH's pre-decrement. -/
def pushPointer (s : State) : Word9 := s.sp - 1

/-- R140: the address PUSH stores to, `sp` after the pre-decrement. -/
def pushAddress (s : State) : Nat := (pushPointer s).toNat

/-- R141: the address POP reads, `sp` before the post-increment. -/
def popAddress (s : State) : Nat := s.sp.toNat

end Sys2Proof.Machine
end

