-- ==== Sys2Proof/Machine/Alu.lean ====
section
/-! DEFINITION. The ALU block (R116 to R118) and the six ALU instructions (R110 to R115). -/

namespace Sys2Proof.Machine

/-- R116: what the ALU block answers: a result for `x[ra]`, the flags, or a fault. -/
inductive AluOut where
  | result (r : Byte)
  | flags (f : Flags)
  | fault (k : FaultKind)
  deriving DecidableEq, Repr

/-- R117, R118: narrow an exact result to a register: modulo 256, or ArithmeticOverflow in the overflow-checking variant when
it is outside 0..255. -/
def narrow (ov : ArithOverflow) (exact : Int) : AluOut :=
  match ov with
  | .wrap => .result (BitVec.ofInt 8 exact)
  | .fault => if exact < 0 ∨ 255 < exact then .fault .arithmeticOverflow else .result (BitVec.ofInt 8 exact)

/-- R110: `u + v`. -/
def aluAdd (ov : ArithOverflow) (u v : Byte) : AluOut := narrow ov ((u.toNat : Int) + (v.toNat : Int))

/-- R111: `u - v`. -/
def aluSub (ov : ArithOverflow) (u v : Byte) : AluOut := narrow ov ((u.toNat : Int) - (v.toNat : Int))

/-- R112: `u * v`. -/
def aluMul (ov : ArithOverflow) (u v : Byte) : AluOut := narrow ov ((u.toNat : Int) * (v.toNat : Int))

/-- R113: `floor(u / v)`, DivisionByZero for `v = 0`. Never an overflow (R118). -/
def aluDiv (u v : Byte) : AluOut :=
  if v = 0 then .fault .divisionByZero else .result (BitVec.ofNat 8 (u.toNat / v.toNat))

/-- R114: `u mod v`, DivisionByZero for `v = 0`. Never an overflow (R118). -/
def aluMod (u v : Byte) : AluOut :=
  if v = 0 then .fault .divisionByZero else .result (BitVec.ofNat 8 (u.toNat % v.toNat))

/-- R115: the comparison, which writes flags only. -/
def aluCmp (u v : Byte) : AluOut := .flags (compareFlags u v)

/-- R116: commit what the ALU answers: the destination register or the flags, then `pc + 3`; a fault writes nothing (R166). -/
def aluCommit (o : Opcode) (a b : Byte) (ra : Fin 8) (s : State) : AluOut → State
  | .result r => advance o.width (writeReg s ra r)
  | .flags f => advance o.width { s with flags := f }
  | .fault k => raise (instrReport k o (some a) (some b) s) s

/-- R116: an ALU instruction: both register operands validated, the operation on their values, the commit. -/
def aluStep (o : Opcode) (op : Byte → Byte → AluOut) (a b : Byte) (s : State) : State :=
  withRegs o a b s fun ra rb => aluCommit o a b ra s (op (readReg s ra) (readReg s rb))

/-- R110 ADD. -/
def execAdd (ra rb : Byte) (s : State) : Host.Outcome State Fault Refusal :=
  .next (aluStep .add (aluAdd s.params.arithOverflow) ra rb s)

/-- R111 SUB. -/
def execSub (ra rb : Byte) (s : State) : Host.Outcome State Fault Refusal :=
  .next (aluStep .sub (aluSub s.params.arithOverflow) ra rb s)

/-- R112 MUL. -/
def execMul (ra rb : Byte) (s : State) : Host.Outcome State Fault Refusal :=
  .next (aluStep .mul (aluMul s.params.arithOverflow) ra rb s)

/-- R113 DIV. -/
def execDiv (ra rb : Byte) (s : State) : Host.Outcome State Fault Refusal :=
  .next (aluStep .div aluDiv ra rb s)

/-- R114 MOD. -/
def execMod (ra rb : Byte) (s : State) : Host.Outcome State Fault Refusal :=
  .next (aluStep .mod aluMod ra rb s)

/-- R115 CMP. -/
def execCmp (ra rb : Byte) (s : State) : Host.Outcome State Fault Refusal :=
  .next (aluStep .cmp aluCmp ra rb s)

end Sys2Proof.Machine
end

