-- ==== Sys2Proof/Machine/Basic.lean ====
section
/-! DEFINITION. HLT, LDI and PRN (42_basic.md R130 to R132). -/

namespace Sys2Proof.Machine

/-- R130 HLT: the notice, HALTED, CLEAN; `pc` stays (D16). -/
def execHlt (s : State) : Host.Outcome State Fault Refusal :=
  .next { emit .haltNotice s with status := .halted, haltReason := .clean }

/-- R131 LDI: `x[ra] <- b`. -/
def execLdi (ra imm : Byte) (s : State) : Host.Outcome State Fault Refusal :=
  .next (withReg .ldi ra (some imm) s fun r => advance Opcode.ldi.width (writeReg s r imm))

/-- R132 PRN: `emit Out(x[ra])`. -/
def execPrn (ra : Byte) (s : State) : Host.Outcome State Fault Refusal :=
  .next (withReg .prn ra none s fun r => advance Opcode.prn.width (emit (.out (readReg s r)) s))

end Sys2Proof.Machine
end

