-- ==== Sys2Proof/Machine/Branch.lean ====
section
/-! DEFINITION. JMP, JEQ and JNE (44_branch.md R150 to R152). -/

namespace Sys2Proof.Machine

/-- R150 JMP: `pc <- a`, the operand byte itself (C6). -/
def execJmp (addr : Byte) (s : State) : Host.Outcome State Fault Refusal :=
  .next (jump addr s)

/-- R151, R152: through register `r` when the condition holds, else past the instruction. -/
def branchReg (o : Opcode) (taken : Bool) (r : Fin 8) (s : State) : State :=
  if taken then jump (readReg s r) s else advance o.width s

/-- R151 JEQ: taken iff E = 1; the register operand is validated either way (R94). -/
def execJeq (ra : Byte) (s : State) : Host.Outcome State Fault Refusal :=
  .next (withReg .jeq ra none s fun r => branchReg .jeq s.flags.e r s)

/-- R152 JNE: taken iff E = 0; the register operand is validated either way (R94). -/
def execJne (ra : Byte) (s : State) : Host.Outcome State Fault Refusal :=
  .next (withReg .jne ra none s fun r => branchReg .jne (!s.flags.e) r s)

end Sys2Proof.Machine
end

