-- ==== Sys2Proof/Machine/Stack.lean ====
section
/-! DEFINITION. PUSH and POP (43_stack.md R140, R141). -/

namespace Sys2Proof.Machine

/-- R140 on a validated register: StackOverflow when `sp - 1 < STACK_FLOOR` (an integer comparison, so `sp = 0` overflows under every floor),
else pre-decrement and store. A store address of 256 or more, which no state with `sp` in 0..256 has, is the address decoder's fault
(R51; log entry 10). -/
def pushReg (a : Byte) (r : Fin 8) (s : State) : State :=
  if s.sp.toNat < s.params.stackFloor + 1 then raise (instrReport .stackOverflow .push (some a) none s) s
  else
    match memWrite { s with sp := pushPointer s } (pushAddress s) (readReg s r) with
    | some t => advance Opcode.push.width t
    | none => raise (addressReport (some Opcode.push.byte) (pushAddress s) s) s

/-- R140 PUSH. -/
def execPush (ra : Byte) (s : State) : Host.Outcome State Fault Refusal :=
  .next (withReg .push ra none s fun r => pushReg ra r s)

/-- R141 on a validated register: StackUnderflow when `sp >= SP_EMPTY`, else load and post-increment. A load address of 256 or more,
which no machine with `SP_EMPTY` at most 256 has, is the address decoder's fault (R51; log entry 10). -/
def popReg (a : Byte) (r : Fin 8) (s : State) : State :=
  if s.params.spEmpty.toNat ≤ s.sp.toNat then raise (instrReport .stackUnderflow .pop (some a) none s) s
  else
    match memRead s (popAddress s) with
    | some v => advance Opcode.pop.width { writeReg s r v with sp := s.sp + 1 }
    | none => raise (addressReport (some Opcode.pop.byte) (popAddress s) s) s

/-- R141 POP. -/
def execPop (ra : Byte) (s : State) : Host.Outcome State Fault Refusal :=
  .next (withReg .pop ra none s fun r => popReg ra r s)

end Sys2Proof.Machine
end

