-- ==== Sys2Proof/Machine/Loader.lean ====
section
/-! DEFINITION. The host's load operation (R40, R190) and the listing reader's contract (R80, R195). -/

namespace Sys2Proof.Machine

/-- `bytes` written at `addr`, `addr + 1`, ... in order. -/
def Memory.writeBytes (m : Memory) (addr : Nat) (bytes : List Byte) : Memory :=
  match bytes with
  | [] => m
  | v :: vs => Memory.writeBytes (m.write addr v) (addr + 1) vs

/-- R195: the report of a LoadError. No instruction is concerned, so it names no `p` (log entry 8). -/
def loadReport (f : LoadFailure) : FaultReport := { kind := .loadError, load := some f }

/-- R34, R190, R191: every piece of state after a successful load of `bytes`, under parameters `params`. -/
def loaded (params : Params) (bytes : List Byte) : State where
  regs := Vector.replicate 8 params.regInit
  pc := 0
  sp := params.spEmpty
  flags := params.flagsInit
  status := .running
  haltReason := .none
  mem := Memory.writeBytes [] 0 bytes
  output := []
  trace := []
  params := params

/-- R40, R190, R195: `load(bytes)`: 0 to 256 bytes from address 0 and everything else reset, or LoadError, whose effect is that of
every fault kind (R166; log entry 8). -/
def State.load (s : State) (bytes : List Byte) : State :=
  if bytes.length ≤ Config.memSize then loaded s.params bytes
  else raise (loadReport (.byteCount bytes.length)) s

/-- R195: one line of a listing without its comment and the white space around the rest (log entry 9). -/
def stripLine (line : List Char) : List Char :=
  (((line.takeWhile (fun c => c != '#')).dropWhile Char.isWhitespace).reverse.dropWhile Char.isWhitespace).reverse

/-- R80, R195: the value of binary digits, most significant first; `none` where a character is no binary digit. -/
def binaryValue (acc : Nat) (digits : List Char) : Option Nat :=
  match digits with
  | [] => some acc
  | c :: cs =>
    if c = '0' then binaryValue (2 * acc) cs
    else if c = '1' then binaryValue (2 * acc + 1) cs
    else none

/-- R195, C4, D23: a literal of 1 to 8 binary digits. -/
def parseLiteral (digits : List Char) : Option Byte :=
  if 1 ≤ digits.length ∧ digits.length ≤ 8 then (binaryValue 0 digits).map (BitVec.ofNat 8) else none

/-- R195: the bytes of a listing, one line a byte, blank and comment lines skipped, or its first failing line. -/
def readListing (lines : List (List Char)) : Except LoadFailure (List Byte) :=
  match lines with
  | [] => .ok []
  | line :: rest =>
    if stripLine line = [] then readListing rest
    else
      match parseLiteral (stripLine line), readListing rest with
      | none, _ => .error (.badLine line)
      | some _, .error f => .error f
      | some v, .ok vs => .ok (v :: vs)

/-- R195: load a listing; a failing line is reported before a byte count (log entry 9). -/
def State.loadListing (s : State) (lines : List (List Char)) : State :=
  match readListing lines with
  | .ok bytes => s.load bytes
  | .error f => raise (loadReport f) s

end Sys2Proof.Machine
end

