-- ==== Sys2Proof/Machine/Step.lean ====
section
/-! DEFINITION. One cycle of the core (40_cycle.md R97) and the host's run (R98). -/

namespace Sys2Proof.Machine

/-- R97: one cycle. HALTED has no effect (R90, D17); else the trace port samples (R178), the cycle fetches and decodes (R91 to R93)
and raises its own fault, or runs the instruction (R94, R95). -/
def step (s : State) : Host.Outcome State Fault Refusal :=
  match s.status with
  | .halted => .next s
  | .running =>
    match fetch s with
    | .error r => .next (raise r (sampleTrace s))
    | .ok i => exec i (sampleTrace s)

/-- R40 (3), R98: `run` under the host's own limit of `fuel` steps (R41): steps until HALTED or the limit. -/
def run (fuel : Nat) (s : State) : Host.Outcome State Fault Refusal :=
  match fuel with
  | 0 => .next s
  | k + 1 =>
    match s.status with
    | .halted => .next s
    | .running =>
      match step s with
      | .next t => run k t
      | .fault f => .fault f
      | .refused r => .refused r

/-- `s` with an instruction's bytes in the cells at `pc` and the core RUNNING, so that the next step fetches and runs it.
A byte past cell 255 has no cell and is dropped (log entry 13). -/
def State.withFetchWord (s : State) (nbits w : Nat) : State :=
  { s with
    mem := Memory.writeBytes s.mem s.pc.toNat ((tableWordBytes nbits w).take (Config.memSize - s.pc.toNat))
    status := .running
    haltReason := .none }

end Sys2Proof.Machine
end

