-- ==== Sys2Proof/Safety.lean ====
section
/-! DEFINITION. The legal states of the core, in the terms the claims use: the ranges and links between fields that the rules state. -/

namespace Sys2Proof.Machine

/-- R26: at most one of E, L, G is set (none before the first CMP, D9). -/
def Flags.atMostOne (f : Flags) : Bool := !(f.e && f.l) && !(f.e && f.g) && !(f.l && f.g)

/-- DESIGN CHOICE (log entry 18): which parameter values count as legal. R5, D6 and D9 give the defaults and say that `SP_EMPTY` may be
another value, but not which values of `SP_EMPTY` and `FLAGS_INIT` a machine may take. The model admits every `SP_EMPTY` of at most 256 and
every `FLAGS_INIT` with at most one flag set. -/
def Params.legal (p : Params) : Bool := decide (p.spEmpty.toNat ≤ Config.memSize) && Flags.atMostOne p.flagsInit

/-- R195: the halt report is a LoadError. -/
def State.loadFailed (s : State) : Prop := ∃ r, s.haltReason = .fault r ∧ r.kind = .loadError

/-- The legal states of the core. -/
structure State.Inv (s : State) : Prop where
  /-- the model's choice of the legal parameter values (log entry 18) -/
  params_legal : Params.legal s.params = true
  /-- R50: the RAM is in its canonical form, with no cell outside 0..255 -/
  mem_wf : s.mem.wf
  /-- R23: pc is in 0..256 -/
  pc_range : s.pc.toNat ≤ Config.memSize
  /-- R25: sp is in 0..SP_EMPTY -/
  sp_range : s.sp.toNat ≤ s.params.spEmpty.toNat
  /-- R26 -/
  flags_range : Flags.atMostOne s.flags = true
  /-- R30: the halt report is NONE exactly while RUNNING -/
  reason_status : s.haltReason = .none ↔ s.status = .running
  /-- R166: the report of a cycle's fault names the pc the machine stopped at -/
  report_pc : ∀ r, s.haltReason = .fault r → r.kind ≠ .loadError → r.p = some s.pc
  /-- R32, R166, D25: the output is values of PRN, then one HaltNotice exactly when HLT ended the run -/
  output_form : ¬ s.loadFailed →
    ∃ vs : List Byte, s.output = vs.map Event.out ++ (if s.haltReason = .clean then [Event.haltNotice] else [])
  /-- R178: with the trace off the port gives nothing -/
  trace_quiet : s.params.traceEnable = false → s.trace = []

/-- R166: the state after a fault with report `r`: HALTED with the report, and nothing else changed. The claims' own transcription. -/
def faulted (s : State) (r : FaultReport) : State := { s with status := .halted, haltReason := .fault r }

/-- R22, column "writes": the operand byte that names the register an instruction writes. -/
def destination : Instr → Option Byte
  | .ldi ra _ => some ra
  | .pop ra => some ra
  | .add ra _ => some ra
  | .sub ra _ => some ra
  | .mul ra _ => some ra
  | .div ra _ => some ra
  | .mod ra _ => some ra
  | .hlt => none
  | .prn _ => none
  | .push _ => none
  | .jmp _ => none
  | .jeq _ => none
  | .jne _ => none
  | .cmp _ _ => none

/-- The value of the register an operand byte names (0 where it names none; claims use it on validated bytes). -/
def regValue (s : State) (a : Byte) : Byte := s.regs[a.toNat]?.getD 0

/-- R24: the pc after an instruction that raises no fault; `s` is the state before it. -/
def pcAfter : Instr → State → Nat
  | .hlt, s => s.pc.toNat
  | .ldi _ _, s => s.pc.toNat + 3
  | .add _ _, s => s.pc.toNat + 3
  | .sub _ _, s => s.pc.toNat + 3
  | .mul _ _, s => s.pc.toNat + 3
  | .div _ _, s => s.pc.toNat + 3
  | .mod _ _, s => s.pc.toNat + 3
  | .cmp _ _, s => s.pc.toNat + 3
  | .prn _, s => s.pc.toNat + 2
  | .push _, s => s.pc.toNat + 2
  | .pop _, s => s.pc.toNat + 2
  | .jmp addr, _ => addr.toNat
  | .jeq ra, s => if s.flags.e then (regValue s ra).toNat else s.pc.toNat + 2
  | .jne ra, s => if s.flags.e then s.pc.toNat + 2 else (regValue s ra).toNat

/-- Two states that differ at most in the flags L and G. -/
def sameButLG (s t : State) : Prop :=
  { s with flags := { s.flags with l := false, g := false } } = { t with flags := { t.flags with l := false, g := false } }

/-- Two states that differ at most in the trace and in whether it is enabled. -/
def sameButTrace (s t : State) : Prop :=
  { s with trace := [], params := { s.params with traceEnable := false } } =
    { t with trace := [], params := { t.params with traceEnable := false } }

end Sys2Proof.Machine
end

