-- ==== Sys2Proof/WellFormed.lean ====
section
/-! DEFINITION. Well-formed instructions: every register operand names one of r0 to r7 (R21, R72). -/

namespace Sys2Proof

/-- R21: an operand byte used as a register index must be in 0..7. -/
def validRegByte (v : Byte) : Bool := v.toNat < Config.numRegs

/-- R72: each register operand is in 0..7; every immediate and every address is valid. -/
def Instr.wellFormed : Instr → Bool
  | .hlt => true
  | .ldi ra _ => validRegByte ra
  | .prn ra => validRegByte ra
  | .push ra => validRegByte ra
  | .pop ra => validRegByte ra
  | .jmp _ => true
  | .jeq ra => validRegByte ra
  | .jne ra => validRegByte ra
  | .cmp ra rb => validRegByte ra && validRegByte rb
  | .add ra rb => validRegByte ra && validRegByte rb
  | .sub ra rb => validRegByte ra && validRegByte rb
  | .mul ra rb => validRegByte ra && validRegByte rb
  | .div ra rb => validRegByte ra && validRegByte rb
  | .mod ra rb => validRegByte ra && validRegByte rb

end Sys2Proof
end

