-- ==== Sys2Proof/Certificates/Slice0/Obligations.lean ====
section
/-! DEFINITION. The statements for the provers. Where a statement says a pc or sp as `s.pc + 3` it is the 9-bit sum; in the legal
states (`State.Inv`) no such sum leaves 0..256 on an instruction that fits in the RAM. -/

open Sys2Proof Sys2Proof.Machine

/-! ## The cycle -/

/-- R95, R97: when the bytes at pc decode to an instruction, a step of a RUNNING core is that instruction's meaning, after the
trace port's sample. -/
def Obligations.StepRunsTheDecodedInstruction : Prop :=
  ∀ (s : State) (i : Instr) (rest : List Byte), s.status = .running → decode (candidateBytes s) = .ok (i, rest) →
    step s = exec i (sampleTrace s)

/-- R92, R93, R95: an instruction whose encoding stands in the cells from pc on is the one a step runs, wherever it stands. -/
def Obligations.StepRunsTheInstructionStoredAtPc : Prop :=
  ∀ (s : State) (i : Instr), s.status = .running →
    (∀ (k : Nat) (h : k < (encode i).length),
      s.pc.toNat + k < 256 ∧ s.mem.read (s.pc.toNat + k) = (encode i)[k]) →
    step s = exec i (sampleTrace s)

/-- R97: the cycle as the spec's pseudocode writes it, for every state. The AddressOutOfRange reports carry no operand byte (R164's list; the
model's reading of R30 beside it is log entry 7, DEDUCED). -/
def Obligations.StepFollowsTheCyclePseudocode : Prop :=
  ∀ s : State,
    let t := sampleTrace s
    let p := s.pc.toNat
    let op := s.mem.read p
    let a := s.mem.read (p + 1)
    let b := s.mem.read (p + 2)
    step s =
      if s.status = .halted then .next s
      else if 256 ≤ p then .next (faulted t { kind := .addressOutOfRange, p := some s.pc, addr := some p })
      else match dispatch op with
        | none => .next (faulted t { kind := .invalidOpcode, p := some s.pc, opcode := some op })
        | some d =>
          if 2 ≤ d.width ∧ 256 ≤ p + 1 then
            .next (faulted t { kind := .addressOutOfRange, p := some s.pc, opcode := some op, addr := some (p + 1) })
          else if d.width = 3 ∧ 256 ≤ p + 2 then
            .next (faulted t { kind := .addressOutOfRange, p := some s.pc, opcode := some op, addr := some (p + 2) })
          else if (d.format = .r ∨ d.format = .ri ∨ d.format = .rr) ∧ 8 ≤ a.toNat then
            .next (faulted t { kind := .invalidRegister, p := some s.pc, opcode := some op, a := some a,
                               b := if d.width = 3 then some b else none })
          else if d.format = .rr ∧ 8 ≤ b.toNat then
            .next (faulted t { kind := .invalidRegister, p := some s.pc, opcode := some op, a := some a, b := some b })
          else exec (d.instr a b) t

/-- R90, D17: in HALTED a step changes nothing. -/
def Obligations.HaltedStepChangesNothing : Prop :=
  ∀ s : State, s.status = .halted → step s = .next s

/-- R91: a fetch at pc = 256 or above raises AddressOutOfRange(addr = p) with no opcode in the report. -/
def Obligations.FetchPastTheTopFaults : Prop :=
  ∀ s : State, s.status = .running → 256 ≤ s.pc.toNat →
    step s = .next (faulted (sampleTrace s) { kind := .addressOutOfRange, p := some s.pc, addr := some s.pc.toNat })

/-- R92, R161: an opcode byte with no dispatch entry raises InvalidOpcode(p, op), recording no operand, whatever bytes follow. -/
def Obligations.UnassignedOpcodeFaults : Prop :=
  ∀ s : State, s.status = .running → s.pc.toNat < 256 → dispatch (s.mem.read s.pc.toNat) = none →
    step s = .next (faulted (sampleTrace s)
      { kind := .invalidOpcode, p := some s.pc, opcode := some (s.mem.read s.pc.toNat) })

/-- R93: each declared operand byte past cell 255 raises AddressOutOfRange at its address, the first one first; when the declared
bytes are there the instruction runs on them, and a byte it does not declare never faults and has no effect. The reports carry no operand byte
(R164's list; log entry 7, DEDUCED). -/
def Obligations.DeclaredOperandBytesAreFetched : Prop :=
  ∀ (s : State) (d : Opcode), s.status = .running → s.pc.toNat < 256 → dispatch (s.mem.read s.pc.toNat) = some d →
    (2 ≤ d.width → 256 ≤ s.pc.toNat + 1 →
      step s = .next (faulted (sampleTrace s)
        { kind := .addressOutOfRange, p := some s.pc, opcode := some d.byte, addr := some (s.pc.toNat + 1) })) ∧
    (d.width = 3 → s.pc.toNat + 1 < 256 → 256 ≤ s.pc.toNat + 2 →
      step s = .next (faulted (sampleTrace s)
        { kind := .addressOutOfRange, p := some s.pc, opcode := some d.byte, addr := some (s.pc.toNat + 2) })) ∧
    (s.pc.toNat + d.width ≤ 256 → ∀ a b : Byte,
      (2 ≤ d.width → a = s.mem.read (s.pc.toNat + 1)) → (d.width = 3 → b = s.mem.read (s.pc.toNat + 2)) →
      step s = exec (d.instr a b) (sampleTrace s))

/-- R94: a register operand byte of 8 or more raises InvalidRegister with the declared operand bytes, before the handler, in every
state (of an untaken branch too); and an instruction whose register operands are all valid never raises it. -/
def Obligations.RegisterOperandsAreValidated : Prop :=
  (∀ (i : Instr) (s : State), i.wellFormed = false →
    exec i s = .next (faulted s { kind := .invalidRegister, p := some s.pc, opcode := some i.opcode.byte,
                                  a := i.operands[0]?, b := i.operands[1]? })) ∧
  (∀ (i : Instr) (s t : State) (r : FaultReport), i.wellFormed = true → s.haltReason = .none → exec i s = .next t →
    t.haltReason = .fault r → r.kind ≠ .invalidRegister)

/-- The model's reading of R166 and R90 (log entry 3, DEDUCED; no rule says it): a spec fault is a next state, HALTED with its report, and
no meaning is refused, so every step of every state has a next state. -/
def Obligations.EveryStepHasANextState : Prop :=
  ∀ s : State, ∃ t : State, step s = .next t

/-! ## The instructions: results and frames (each equation names every field that changes) -/

/-- R110, ADD. -/
def Obligations.AddWritesTheSum : Prop :=
  ∀ (s : State) (a b : Byte) (ha : a.toNat < 8) (hb : b.toNat < 8),
    (s.params.arithOverflow = .wrap ∨ s.regs[a.toNat].toNat + s.regs[b.toNat].toNat ≤ 255 →
      exec (.add a b) s = .next { s with
        regs := s.regs.set a.toNat (BitVec.ofNat 8 ((s.regs[a.toNat].toNat + s.regs[b.toNat].toNat) % 256))
        pc := s.pc + 3 }) ∧
    (s.params.arithOverflow = .fault → 255 < s.regs[a.toNat].toNat + s.regs[b.toNat].toNat →
      exec (.add a b) s = .next (faulted s
        { kind := .arithmeticOverflow, p := some s.pc, opcode := some 0xA0, a := some a, b := some b }))

/-- R111, SUB. -/
def Obligations.SubWritesTheDifference : Prop :=
  ∀ (s : State) (a b : Byte) (ha : a.toNat < 8) (hb : b.toNat < 8),
    (s.params.arithOverflow = .wrap ∨ s.regs[b.toNat].toNat ≤ s.regs[a.toNat].toNat →
      exec (.sub a b) s = .next { s with
        regs := s.regs.set a.toNat (BitVec.ofNat 8 ((s.regs[a.toNat].toNat + 256 - s.regs[b.toNat].toNat) % 256))
        pc := s.pc + 3 }) ∧
    (s.params.arithOverflow = .fault → s.regs[a.toNat].toNat < s.regs[b.toNat].toNat →
      exec (.sub a b) s = .next (faulted s
        { kind := .arithmeticOverflow, p := some s.pc, opcode := some 0xA1, a := some a, b := some b }))

/-- R112, MUL. -/
def Obligations.MulWritesTheProduct : Prop :=
  ∀ (s : State) (a b : Byte) (ha : a.toNat < 8) (hb : b.toNat < 8),
    (s.params.arithOverflow = .wrap ∨ s.regs[a.toNat].toNat * s.regs[b.toNat].toNat ≤ 255 →
      exec (.mul a b) s = .next { s with
        regs := s.regs.set a.toNat (BitVec.ofNat 8 ((s.regs[a.toNat].toNat * s.regs[b.toNat].toNat) % 256))
        pc := s.pc + 3 }) ∧
    (s.params.arithOverflow = .fault → 255 < s.regs[a.toNat].toNat * s.regs[b.toNat].toNat →
      exec (.mul a b) s = .next (faulted s
        { kind := .arithmeticOverflow, p := some s.pc, opcode := some 0xA2, a := some a, b := some b }))

/-- R113, DIV. -/
def Obligations.DivWritesTheQuotient : Prop :=
  ∀ (s : State) (a b : Byte) (ha : a.toNat < 8) (hb : b.toNat < 8),
    (s.regs[b.toNat] ≠ 0 →
      exec (.div a b) s = .next { s with
        regs := s.regs.set a.toNat (BitVec.ofNat 8 (s.regs[a.toNat].toNat / s.regs[b.toNat].toNat))
        pc := s.pc + 3 }) ∧
    (s.regs[b.toNat] = 0 →
      exec (.div a b) s = .next (faulted s
        { kind := .divisionByZero, p := some s.pc, opcode := some 0xA3, a := some a, b := some b }))

/-- R114, MOD. -/
def Obligations.ModWritesTheRemainder : Prop :=
  ∀ (s : State) (a b : Byte) (ha : a.toNat < 8) (hb : b.toNat < 8),
    (s.regs[b.toNat] ≠ 0 →
      exec (.mod a b) s = .next { s with
        regs := s.regs.set a.toNat (BitVec.ofNat 8 (s.regs[a.toNat].toNat % s.regs[b.toNat].toNat))
        pc := s.pc + 3 }) ∧
    (s.regs[b.toNat] = 0 →
      exec (.mod a b) s = .next (faulted s
        { kind := .divisionByZero, p := some s.pc, opcode := some 0xA4, a := some a, b := some b }))

/-- R115, CMP: E, L and G are the three unsigned comparisons. -/
def Obligations.CmpSetsExactlyOneFlag : Prop :=
  ∀ (s : State) (a b : Byte) (ha : a.toNat < 8) (hb : b.toNat < 8),
    exec (.cmp a b) s = .next { s with
      flags := { e := decide (s.regs[a.toNat].toNat = s.regs[b.toNat].toNat)
                 l := decide (s.regs[a.toNat].toNat < s.regs[b.toNat].toNat)
                 g := decide (s.regs[a.toNat].toNat > s.regs[b.toNat].toNat) }
      pc := s.pc + 3 }

/-- R130, HLT. -/
def Obligations.HltHaltsCleanly : Prop :=
  ∀ s : State, exec .hlt s = .next { s with
    output := s.output ++ [.haltNotice], status := .halted, haltReason := .clean }

/-- R131, LDI. -/
def Obligations.LdiLoadsTheImmediate : Prop :=
  ∀ (s : State) (a b : Byte) (ha : a.toNat < 8),
    exec (.ldi a b) s = .next { s with regs := s.regs.set a.toNat b, pc := s.pc + 3 }

/-- R132, PRN. -/
def Obligations.PrnEmitsTheRegister : Prop :=
  ∀ (s : State) (a : Byte) (ha : a.toNat < 8),
    exec (.prn a) s = .next { s with output := s.output ++ [.out s.regs[a.toNat]], pc := s.pc + 2 }

/-- R140, PUSH, for `sp` in its range: one cell is written, at the decremented `sp`, and no other; below the floor StackOverflow. -/
def Obligations.PushStoresTheRegister : Prop :=
  ∀ (s : State) (a : Byte) (ha : a.toNat < 8), s.sp.toNat ≤ 256 →
    (s.params.stackFloor < s.sp.toNat →
      ∃ t : State, exec (.push a) s = .next t ∧
        t = { s with sp := s.sp - 1, pc := s.pc + 2, mem := t.mem } ∧
        pushAddress s + 1 = s.sp.toNat ∧
        t.mem.read (pushAddress s) = s.regs[a.toNat] ∧
        ∀ x : Nat, x ≠ pushAddress s → t.mem.read x = s.mem.read x) ∧
    (s.sp.toNat ≤ s.params.stackFloor →
      exec (.push a) s = .next (faulted s
        { kind := .stackOverflow, p := some s.pc, opcode := some 0x45, a := some a }))

/-- R141, POP, for `sp` and `SP_EMPTY` in their range. -/
def Obligations.PopLoadsTheTopOfTheStack : Prop :=
  ∀ (s : State) (a : Byte) (ha : a.toNat < 8), s.params.spEmpty.toNat ≤ 256 →
    (s.sp.toNat < s.params.spEmpty.toNat →
      exec (.pop a) s = .next { s with
        regs := s.regs.set a.toNat (s.mem.read s.sp.toNat), sp := s.sp + 1, pc := s.pc + 2 }) ∧
    (s.params.spEmpty.toNat ≤ s.sp.toNat →
      exec (.pop a) s = .next (faulted s
        { kind := .stackUnderflow, p := some s.pc, opcode := some 0x46, a := some a }))

/-- R150, JMP: the target is the operand byte itself. -/
def Obligations.JmpGoesToTheOperand : Prop :=
  ∀ (s : State) (a : Byte), exec (.jmp a) s = .next { s with pc := BitVec.ofNat 9 a.toNat }

/-- R151, JEQ. -/
def Obligations.JeqBranchesWhenEqual : Prop :=
  ∀ (s : State) (a : Byte) (ha : a.toNat < 8),
    (s.flags.e = true → exec (.jeq a) s = .next { s with pc := BitVec.ofNat 9 s.regs[a.toNat].toNat }) ∧
    (s.flags.e = false → exec (.jeq a) s = .next { s with pc := s.pc + 2 })

/-- R152, JNE. -/
def Obligations.JneBranchesWhenNotEqual : Prop :=
  ∀ (s : State) (a : Byte) (ha : a.toNat < 8),
    (s.flags.e = false → exec (.jne a) s = .next { s with pc := BitVec.ofNat 9 s.regs[a.toNat].toNat }) ∧
    (s.flags.e = true → exec (.jne a) s = .next { s with pc := s.pc + 2 })

/-- R5 (`STACK_FLOOR`, `SP_RANGE`), R25, R51, R56: in the legal states (parameters legal by the model's choice, log entry 18) a PUSH above
the floor and a POP of a non-empty stack complete with sp moved by exactly one and no wrap-around, at an address from STACK_FLOOR up to below
SP_EMPTY for PUSH and below SP_EMPTY for POP, always a cell of the RAM; and no step changes a byte below STACK_FLOOR or from SP_EMPTY on. -/
def Obligations.StackStaysBetweenFloorAndSpEmpty : Prop :=
  (∀ (s : State) (a : Byte), s.Inv → a.toNat < 8 →
    (s.params.stackFloor < s.sp.toNat →
      ∃ t : State, exec (.push a) s = .next t ∧ t.status = s.status ∧ t.haltReason = s.haltReason ∧
        t.sp.toNat + 1 = s.sp.toNat ∧ pushAddress s = t.sp.toNat ∧
        s.params.stackFloor ≤ pushAddress s ∧ pushAddress s < s.params.spEmpty.toNat ∧ pushAddress s < 256) ∧
    (s.sp.toNat < s.params.spEmpty.toNat →
      ∃ t : State, exec (.pop a) s = .next t ∧ t.status = s.status ∧ t.haltReason = s.haltReason ∧
        t.sp.toNat = s.sp.toNat + 1 ∧ t.sp.toNat ≤ s.params.spEmpty.toNat ∧ s.sp.toNat < 256)) ∧
  (∀ s t : State, s.Inv → step s = .next t →
    ∀ x : Nat, x < s.params.stackFloor ∨ s.params.spEmpty.toNat ≤ x → t.mem.read x = s.mem.read x)

/-! ## Frames over every instruction -/

/-- R22, column "writes": every register but the destination of LDI, POP, ADD, SUB, MUL, DIV and MOD keeps its value. -/
def Obligations.OnlyTheDestinationRegisterChanges : Prop :=
  ∀ (i : Instr) (s t : State), exec i s = .next t →
    ∀ (k : Nat) (hk : k < 8), (∀ d : Byte, destination i = some d → d.toNat ≠ k) → t.regs[k] = s.regs[k]

/-- R26: no instruction but CMP changes a flag. -/
def Obligations.OnlyCmpChangesTheFlags : Prop :=
  ∀ (i : Instr) (s t : State), exec i s = .next t → (∀ a b : Byte, i ≠ .cmp a b) → t.flags = s.flags

/-- R25: no instruction but PUSH and POP changes sp. -/
def Obligations.OnlyPushAndPopChangeSp : Prop :=
  ∀ (i : Instr) (s t : State), exec i s = .next t → (∀ a : Byte, i ≠ .push a) → (∀ a : Byte, i ≠ .pop a) → t.sp = s.sp

/-- R50, R52: every byte of memory keeps its value, but the one PUSH stores to. -/
def Obligations.OnlyPushChangesMemory : Prop :=
  ∀ (i : Instr) (s t : State), exec i s = .next t →
    ∀ x : Nat, (∀ a : Byte, i = .push a → x ≠ pushAddress s) → t.mem.read x = s.mem.read x

/-- R32: the output stream is append-only and only PRN and HLT append to it, one event at most. -/
def Obligations.OnlyPrnAndHltEmit : Prop :=
  ∀ (i : Instr) (s t : State), exec i s = .next t →
    (∃ es : List Event, t.output = s.output ++ es ∧ es.length ≤ 1) ∧
    ((∀ a : Byte, i ≠ .prn a) → i ≠ .hlt → t.output = s.output)

/-- No step changes a parameter of R5, and the trace port adds to the trace one sample at most, at the start of a RUNNING cycle (R178;
the fields are the model's own, log entries 2 and 5). -/
def Obligations.StepKeepsTheParameters : Prop :=
  ∀ s t : State, step s = .next t →
    t.params = s.params ∧
    t.trace = if s.status = .running ∧ s.params.traceEnable = true then s.trace ++ [traceSample s] else s.trace

/-- R24: the pc after each instruction. -/
def Obligations.PcAfterEachInstruction : Prop :=
  ∀ (i : Instr) (s t : State), s.status = .running → s.pc.toNat + i.opcode.width ≤ 256 → exec i s = .next t →
    (∀ r : FaultReport, t.haltReason = .fault r → t.status = .halted → t.pc = s.pc) ∧
    ((t.status = .running ∨ t.haltReason = .clean) → i.wellFormed = true → s.haltReason = .none →
      t.pc.toNat = pcAfter i s)

/-! ## Halting and faults -/

/-- R29, R90: a RUNNING core goes on RUNNING, or halts cleanly at an HLT, or halts with a fault. -/
def Obligations.OnlyHltAndFaultsHalt : Prop :=
  ∀ s t : State, s.status = .running → s.haltReason = .none → step s = .next t →
    (t.status = .running ∧ t.haltReason = .none) ∨
    (t.status = .halted ∧ t.haltReason = .clean ∧ s.pc.toNat < 256 ∧ s.mem.read s.pc.toNat = 0x01) ∨
    (t.status = .halted ∧ ∃ r : FaultReport, t.haltReason = .fault r)

/-- R166: a fault of any kind leaves the state exactly as before the instruction but for the status and the report, which names
the pc; no event is emitted (the trace port's sample apart, R178). -/
def Obligations.FaultsArePrecise : Prop :=
  ∀ (s t : State) (r : FaultReport), s.status = .running → s.haltReason = .none → step s = .next t →
    t.haltReason = .fault r →
    t = { sampleTrace s with status := .halted, haltReason := .fault r } ∧ r.p = some s.pc

/-- R160, column "raised by", with R99, R167 and R168: which opcode bytes can raise which kind of fault in a cycle. -/
def Obligations.FaultKindsByOpcode : Prop :=
  ∀ (s t : State) (r : FaultReport), s.status = .running → s.haltReason = .none → step s = .next t →
    t.haltReason = .fault r →
    r.kind ≠ .unsupportedOperation ∧ r.kind ≠ .loadError ∧
    (r.kind = .divisionByZero → r.opcode = some 0xA3 ∨ r.opcode = some 0xA4) ∧
    (r.kind = .stackOverflow → r.opcode = some 0x45) ∧
    (r.kind = .stackUnderflow → r.opcode = some 0x46) ∧
    (r.kind = .arithmeticOverflow →
      s.params.arithOverflow = .fault ∧ (r.opcode = some 0xA0 ∨ r.opcode = some 0xA1 ∨ r.opcode = some 0xA2)) ∧
    (r.kind = .invalidRegister → r.opcode ≠ some 0x01 ∧ r.opcode ≠ some 0x54) ∧
    (r.opcode = none → r.kind = .addressOutOfRange ∧ 256 ≤ s.pc.toNat)

/-- R51, last sentences: in a legal state the stack accesses of PUSH and POP never leave the RAM, so no meaning raises
AddressOutOfRange: only the cycle's fetches can. (The legal states rest on log entry 18 for the parameters.) -/
def Obligations.HandlersNeverLeaveTheRam : Prop :=
  ∀ (i : Instr) (s t : State) (r : FaultReport), s.Inv → s.haltReason = .none → exec i s = .next t →
    t.haltReason = .fault r → r.kind ≠ .addressOutOfRange

/-! ## Invariants, reset and load -/

/-- Every step keeps the legal states legal (R23, R25, R26, R30, R32, R50, R166, R178; which parameter values are legal is the model's
choice, log entry 18). -/
def Obligations.StepKeepsTheLegalStates : Prop :=
  ∀ s t : State, s.Inv → step s = .next t → t.Inv

/-- The state after reset is legal (log entry 18 for the parameters, whose defaults are R5's). -/
def Obligations.ResetIsLegal : Prop := State.reset.Inv

/-- Every load, successful or not, keeps the legal states legal (R34, R190, R195; for a failed load with log entry 8, DEDUCED;
which parameter values are legal is the model's choice, log entry 18). -/
def Obligations.LoadKeepsTheLegalStates : Prop :=
  ∀ (s : State) (bytes : List Byte), s.Inv → (s.load bytes).Inv

/-- R34: every piece of state after reset and load, under the parameters' values; under the defaults of R5 these are 256, 0 and 0. -/
def Obligations.LoadResetsEverything : Prop :=
  (∀ (s : State) (bytes : List Byte), bytes.length ≤ 256 →
    let t := s.load bytes
    t.pc = 0 ∧ t.sp = s.params.spEmpty ∧ (∀ (k : Nat) (hk : k < 8), t.regs[k] = s.params.regInit) ∧
    t.flags = s.params.flagsInit ∧
    (∀ (k : Nat) (hk : k < bytes.length), t.mem.read k = bytes[k]) ∧
    (∀ k : Nat, bytes.length ≤ k → t.mem.read k = 0) ∧
    t.status = .running ∧ t.haltReason = .none ∧ t.output = []) ∧
  Params.default.spEmpty = 256 ∧ Params.default.regInit = 0 ∧
  Params.default.flagsInit = { e := false, l := false, g := false } ∧
  State.reset.params = Params.default ∧
  ∀ s : State, s.params = Params.default → s.load [] = State.reset

/-- R195: more bytes than memory holds is a LoadError with the byte count, and no cycle runs (the rest of the state as log
entry 8 says, DEDUCED). -/
def Obligations.LoadOfTooManyBytesHalts : Prop :=
  ∀ (s : State) (bytes : List Byte), 256 < bytes.length →
    s.load bytes = faulted s { kind := .loadError, load := some (.byteCount bytes.length) } ∧
    ∀ fuel : Nat, run fuel (s.load bytes) = .next (s.load bytes)

/-- R195, C4, D23: a listing line of one to eight binary digits is the byte they write, most significant digit first; one of nine or more characters, or with
another character in it, fails with that line. What counts as white space around it is the model's choice (log entry 9, DESIGN CHOICE). -/
def Obligations.ListingLineIsABinaryLiteral : Prop :=
  (∀ digits : List Bool, 1 ≤ digits.length → digits.length ≤ 8 →
    readListing [digits.map (fun d => if d then '1' else '0')] =
      .ok [BitVec.ofNat 8 (digits.foldl (fun n d => 2 * n + d.toNat) 0)]) ∧
  (∀ line : List Char, 8 < (stripLine line).length → readListing [line] = .error (.badLine line)) ∧
  (∀ line : List Char, (∃ c ∈ stripLine line, c ≠ '0' ∧ c ≠ '1') → readListing [line] = .error (.badLine line))

/-- R40 (3), R90, R98: running under a limit is stepping that many times, since HALTED absorbs the rest. -/
def Obligations.RunIsRepeatedStep : Prop :=
  ∀ (fuel : Nat) (s : State), run fuel s = Sys2Proof.core.run fuel s

/-! ## Encoding -/

/-- R71, R72, R73: decoding the encoding of any instruction, with every operand at every value, gives it back and leaves the bytes that
follow it. -/
def Obligations.DecodeUndoesEncode : Prop :=
  ∀ (i : Instr) (rest : List Byte), decode (encode i ++ rest) = .ok (i, rest)

/-- R70, R74, R79: an instruction has one encoding: bytes that decode to it begin with exactly that encoding, of the width its opcode
fixes. -/
def Obligations.DecodedBytesAreTheEncoding : Prop :=
  ∀ (bytes rest : List Byte) (i : Instr), decode bytes = .ok (i, rest) →
    bytes = encode i ++ rest ∧ (encode i).length = i.opcode.width

/-- R74, R75, R76, R78 (the values of eleven opcodes are the spec's adopted assignment, D5, log entry 1): the dispatch table
row by row, and NONE for each of the other 242 bytes. -/
def Obligations.DispatchTableIsTheOpcodeMap : Prop :=
  (∀ row ∈ ([(0x01, .hlt, .n, 1), (0x82, .ldi, .ri, 3), (0x47, .prn, .r, 2), (0x45, .push, .r, 2), (0x46, .pop, .r, 2),
      (0x54, .jmp, .a, 2), (0x55, .jeq, .r, 2), (0x56, .jne, .r, 2), (0xA7, .cmp, .rr, 3), (0xA0, .add, .rr, 3),
      (0xA1, .sub, .rr, 3), (0xA2, .mul, .rr, 3), (0xA3, .div, .rr, 3), (0xA4, .mod, .rr, 3)] : List (Byte × Opcode × Format × Nat)),
    dispatch row.1 = some row.2.1 ∧ row.2.1.format = row.2.2.1 ∧ row.2.1.width = row.2.2.2) ∧
  (∀ op : Byte, op ∉ ([0x01, 0x82, 0x47, 0x45, 0x46, 0x54, 0x55, 0x56, 0xA7, 0xA0, 0xA1, 0xA2, 0xA3, 0xA4] : List Byte) →
    dispatch op = none) ∧
  ((List.range 256).filter (fun n => dispatch (BitVec.ofNat 8 n) == none)).length = 242

/-- Words written out from R71 and R76, one of each format and more, decode to their instructions. -/
def Obligations.WrittenWordsDecode : Prop :=
  decode [0b00000001] = .ok (.hlt, []) ∧
  decode [0b10000010, 0b00000111, 0b11111111] = .ok (.ldi 7 255, []) ∧
  decode [0b01000111, 0b00000011] = .ok (.prn 3, []) ∧
  decode [0b01000101, 0b00000000] = .ok (.push 0, []) ∧
  decode [0b01010100, 0b00001010] = .ok (.jmp 10, []) ∧
  decode [0b10100001, 0b00000010, 0b00000011] = .ok (.sub 2 3, []) ∧
  decode [0b10100111, 0b00000001, 0b00000100] = .ok (.cmp 1 4, [])

/-! ## Two runs and two steps -/

/-- R26: L and G have no effect on any later instruction: states that differ only in them step to states that differ at most in
them. -/
def Obligations.FlagsLAndGAreNeverRead : Prop :=
  ∀ s s' t t' : State, sameButLG s s' → step s = .next t → step s' = .next t' → sameButLG t t'

/-- R178: the trace changes no rule of the core: states that differ only in the trace step to states that differ only in the
trace. -/
def Obligations.TraceHasNoEffect : Prop :=
  ∀ s s' t t' : State, sameButTrace s s' → step s = .next t → step s' = .next t' → sameButTrace t t'

/-- R178, D26: what one sample of the trace port holds (the record type is the model's own, log entry 5). -/
def Obligations.TraceSampleShowsPcBytesAndRegisters : Prop :=
  ∀ s : State, traceSample s =
    { pc := s.pc
      byte0 := if s.pc.toNat < 256 then some (s.mem.read s.pc.toNat) else none
      byte1 := if s.pc.toNat + 1 < 256 then some (s.mem.read (s.pc.toNat + 1)) else none
      byte2 := if s.pc.toNat + 2 < 256 then some (s.mem.read (s.pc.toNat + 2)) else none
      regs := s.regs }

/-- R141's derived corner case: PUSH then POP on one register leaves that register, every other register, the flags and sp as they
were before the PUSH. -/
def Obligations.PushThenPopRestores : Prop :=
  ∀ (s : State) (a : Byte), a.toNat < 8 → s.params.stackFloor < s.sp.toNat → s.sp.toNat ≤ s.params.spEmpty.toNat →
    s.params.spEmpty.toNat ≤ 256 →
    ∃ t u : State, exec (.push a) s = .next t ∧ exec (.pop a) t = .next u ∧
      u.regs = s.regs ∧ u.sp = s.sp ∧ u.flags = s.flags ∧ u.pc = s.pc + 4 ∧ u.status = s.status

/-- R59, R201: a byte PUSH writes is seen by the very next fetch: an HLT byte pushed onto the cell of the next instruction is the
instruction that the next step runs. -/
def Obligations.PushedOpcodeIsFetchedNext : Prop :=
  ∀ (s t : State) (a : Byte) (ha : a.toNat < 8), s.status = .running → s.haltReason = .none → s.sp.toNat ≤ 256 →
    exec (.push a) s = .next t → t.status = .running → t.pc.toNat = pushAddress s → s.regs[a.toNat] = 0x01 →
    step t = exec .hlt (sampleTrace t)
end

