-- ==== Sys2Proof/Laws/Memory.lean ====
section
/-! SUPPORT. The laws of memory: a read after a write, and the canonical form that every write keeps. -/

namespace Sys2Proof.Machine

@[simp] theorem Memory.read_nil (x : Nat) : Memory.read [] x = Config.memFill := rfl

theorem Memory.read_cons (c : Host.Cell) (cs : Memory) (x : Nat) :
    Memory.read (c :: cs) x = if c.1 = x then c.2 else Memory.read cs x := rfl

theorem Memory.read_erase_same (m : Memory) (x : Nat) : (Memory.erase m x).read x = Config.memFill := by
  induction m with
  | nil => rfl
  | cons c cs ih =>
    by_cases h : c.1 = x
    · simpa [Memory.erase, h] using ih
    · simpa [Memory.erase, h, Memory.read_cons] using ih

theorem Memory.read_erase_other (m : Memory) (x y : Nat) (hxy : y ≠ x) : (Memory.erase m x).read y = m.read y := by
  induction m with
  | nil => rfl
  | cons c cs ih =>
    by_cases h : c.1 = x
    · have hy : ¬ c.1 = y := fun e => hxy (e.symm.trans h)
      simpa [Memory.erase, h, Memory.read_cons, hy, Ne.symm hxy] using ih
    · simp only [Memory.erase] at ih
      simp [Memory.erase, h, Memory.read_cons, ih]

theorem Memory.read_insert_same (m : Memory) (x : Nat) (v : Byte) : (Memory.insert m x v).read x = v := by
  induction m with
  | nil => simp [Memory.insert, Memory.read]
  | cons c cs ih =>
    unfold Memory.insert
    split
    · simp [Memory.read]
    · split
      · simp [Memory.read]
      · rename_i h
        simp [Memory.read_cons, Ne.symm h, ih]

theorem Memory.read_insert_other (m : Memory) (x y : Nat) (v : Byte) (hxy : y ≠ x) :
    (Memory.insert m x v).read y = m.read y := by
  induction m with
  | nil => simp [Memory.insert, Memory.read, Ne.symm hxy]
  | cons c cs ih =>
    unfold Memory.insert
    split
    · simp [Memory.read_cons, Ne.symm hxy]
    · split
      · rename_i h
        simp [Memory.read_cons, ← h, Ne.symm hxy]
      · simp [Memory.read_cons, ih]

/-- R52: a read of the cell just written gives the byte written, in any memory. -/
@[simp] theorem Memory.read_write_same (m : Memory) (x : Nat) (v : Byte) : (m.write x v).read x = v := by
  unfold Memory.write
  split
  · rename_i h
    rw [Memory.read_erase_same, h]
  · exact Memory.read_insert_same m x v

/-- R52: a write changes no other cell, in any memory. -/
theorem Memory.read_write_other (m : Memory) (x y : Nat) (v : Byte) (hxy : y ≠ x) : (m.write x v).read y = m.read y := by
  unfold Memory.write
  split
  · exact Memory.read_erase_other m x y hxy
  · exact Memory.read_insert_other m x y v hxy

theorem Memory.mem_insert (m : Memory) (x : Nat) (v : Byte) :
    ∀ c ∈ Memory.insert m x v, c = (x, v) ∨ c ∈ m := by
  induction m with
  | nil => simp [Memory.insert]
  | cons d ds ih =>
    intro c hc
    unfold Memory.insert at hc
    split at hc
    · simpa using hc
    · split at hc
      · rcases List.mem_cons.mp hc with h | h
        · exact .inl h
        · exact .inr (List.mem_cons_of_mem _ h)
      · rcases List.mem_cons.mp hc with h | h
        · exact .inr (h ▸ List.mem_cons_self)
        · exact (ih c h).imp_right (List.mem_cons_of_mem _)

theorem Memory.insert_rising (m : Memory) (x : Nat) (v : Byte) (h : m.Pairwise (fun c d => c.1 < d.1)) :
    (Memory.insert m x v).Pairwise (fun c d => c.1 < d.1) := by
  induction m with
  | nil => simp [Memory.insert]
  | cons c cs ih =>
    obtain ⟨hc, hcs⟩ := List.pairwise_cons.mp h
    unfold Memory.insert
    split
    · rename_i hx
      refine List.pairwise_cons.mpr ⟨fun d hd => ?_, h⟩
      rcases List.mem_cons.mp hd with rfl | hd
      · exact hx
      · exact Nat.lt_trans hx (hc d hd)
    · split
      · rename_i hx
        exact List.pairwise_cons.mpr ⟨fun d hd => by simpa [hx] using hc d hd, hcs⟩
      · rename_i h1 h2
        refine List.pairwise_cons.mpr ⟨fun d hd => ?_, ih hcs⟩
        rcases Memory.mem_insert cs x v d hd with rfl | hd
        · exact Nat.lt_of_le_of_ne (Nat.le_of_not_lt h1) (Ne.symm h2)
        · exact hc d hd

/-- Writing a cell of the RAM keeps the canonical form. -/
theorem Memory.write_wf (m : Memory) (x : Nat) (v : Byte) (hm : m.wf) (hx : x < Config.memSize) : (m.write x v).wf := by
  unfold Memory.write
  split
  · exact ⟨hm.1.sublist List.filter_sublist, fun c hc => hm.2 c (List.mem_of_mem_filter hc)⟩
  · rename_i hv
    refine ⟨Memory.insert_rising m x v hm.1, fun c hc => ?_⟩
    rcases Memory.mem_insert m x v c hc with rfl | hc
    · exact ⟨hx, hv⟩
    · exact hm.2 c hc

theorem Memory.nil_wf : Memory.wf [] := by simp [Memory.wf]

/-- Writing a run of bytes inside the RAM keeps the canonical form. -/
theorem Memory.writeBytes_wf (bytes : List Byte) : ∀ (m : Memory) (x : Nat), m.wf → x + bytes.length ≤ Config.memSize →
    (Memory.writeBytes m x bytes).wf := by
  induction bytes with
  | nil => exact fun m x hm _ => hm
  | cons v vs ih =>
    intro m x hm hx
    simp only [List.length_cons] at hx
    exact ih _ _ (Memory.write_wf m x v hm (by omega)) (by omega)

/-- A run of bytes leaves every cell outside it alone. -/
theorem Memory.read_writeBytes_other (bytes : List Byte) : ∀ (m : Memory) (x y : Nat), y < x ∨ x + bytes.length ≤ y →
    (Memory.writeBytes m x bytes).read y = m.read y := by
  induction bytes with
  | nil => exact fun _ _ _ _ => rfl
  | cons v vs ih =>
    intro m x y hy
    simp only [List.length_cons] at hy
    rw [Memory.writeBytes, ih _ _ _ (by omega), Memory.read_write_other _ _ _ _ (by omega)]

/-- A run of bytes is read back byte for byte. -/
theorem Memory.read_writeBytes_inside (bytes : List Byte) : ∀ (m : Memory) (x k : Nat) (hk : k < bytes.length),
    (Memory.writeBytes m x bytes).read (x + k) = bytes[k] := by
  induction bytes with
  | nil => exact fun _ _ k hk => absurd hk (Nat.not_lt_zero k)
  | cons v vs ih =>
    intro m x k hk
    cases k with
    | zero => simp [Memory.writeBytes, Memory.read_writeBytes_other]
    | succ k =>
      simp only [List.length_cons] at hk
      have := ih (m.write x v) (x + 1) k (by omega)
      rw [Memory.writeBytes, List.getElem_cons_succ, ← this]
      congr 1
      omega

/-- R51: the address decoder on a read. -/
theorem memRead_eq (s : State) (x : Nat) : memRead s x = if x < 256 then some (s.mem.read x) else none := by
  simp [memRead, addressDecodes, Config.memSize]

theorem memRead_of_lt (s : State) (x : Nat) (h : x < 256) : memRead s x = some (s.mem.read x) := by
  simp [memRead_eq, h]

theorem memRead_of_ge (s : State) (x : Nat) (h : 256 ≤ x) : memRead s x = none := by
  simp [memRead_eq, Nat.not_lt.mpr h]

/-- R51: the address decoder on a write. -/
theorem memWrite_eq (s : State) (x : Nat) (v : Byte) :
    memWrite s x v = if x < 256 then some { s with mem := s.mem.write x v } else none := by
  simp [memWrite, addressDecodes, Config.memSize]

end Sys2Proof.Machine
end

