-- ==== Sys2Proof/Laws/State.lean ====
section
/-! SUPPORT. One lemma per field of State and shared update: what the update leaves in the field. -/

namespace Sys2Proof.Machine

@[simp] theorem writeReg_regs (s : State) (r : Fin 8) (v : Byte) : (writeReg s r v).regs = s.regs.set r v := rfl
@[simp] theorem writeReg_pc (s : State) (r : Fin 8) (v : Byte) : (writeReg s r v).pc = s.pc := rfl
@[simp] theorem writeReg_sp (s : State) (r : Fin 8) (v : Byte) : (writeReg s r v).sp = s.sp := rfl
@[simp] theorem writeReg_flags (s : State) (r : Fin 8) (v : Byte) : (writeReg s r v).flags = s.flags := rfl
@[simp] theorem writeReg_status (s : State) (r : Fin 8) (v : Byte) : (writeReg s r v).status = s.status := rfl
@[simp] theorem writeReg_haltReason (s : State) (r : Fin 8) (v : Byte) : (writeReg s r v).haltReason = s.haltReason := rfl
@[simp] theorem writeReg_mem (s : State) (r : Fin 8) (v : Byte) : (writeReg s r v).mem = s.mem := rfl
@[simp] theorem writeReg_output (s : State) (r : Fin 8) (v : Byte) : (writeReg s r v).output = s.output := rfl
@[simp] theorem writeReg_trace (s : State) (r : Fin 8) (v : Byte) : (writeReg s r v).trace = s.trace := rfl
@[simp] theorem writeReg_params (s : State) (r : Fin 8) (v : Byte) : (writeReg s r v).params = s.params := rfl

@[simp] theorem advance_regs (w : Nat) (s : State) : (advance w s).regs = s.regs := rfl
@[simp] theorem advance_pc (w : Nat) (s : State) : (advance w s).pc = s.pc + BitVec.ofNat 9 w := rfl
@[simp] theorem advance_sp (w : Nat) (s : State) : (advance w s).sp = s.sp := rfl
@[simp] theorem advance_flags (w : Nat) (s : State) : (advance w s).flags = s.flags := rfl
@[simp] theorem advance_status (w : Nat) (s : State) : (advance w s).status = s.status := rfl
@[simp] theorem advance_haltReason (w : Nat) (s : State) : (advance w s).haltReason = s.haltReason := rfl
@[simp] theorem advance_mem (w : Nat) (s : State) : (advance w s).mem = s.mem := rfl
@[simp] theorem advance_output (w : Nat) (s : State) : (advance w s).output = s.output := rfl
@[simp] theorem advance_trace (w : Nat) (s : State) : (advance w s).trace = s.trace := rfl
@[simp] theorem advance_params (w : Nat) (s : State) : (advance w s).params = s.params := rfl

@[simp] theorem jump_regs (target : Byte) (s : State) : (jump target s).regs = s.regs := rfl
@[simp] theorem jump_pc (target : Byte) (s : State) : (jump target s).pc = target.setWidth 9 := rfl
@[simp] theorem jump_sp (target : Byte) (s : State) : (jump target s).sp = s.sp := rfl
@[simp] theorem jump_flags (target : Byte) (s : State) : (jump target s).flags = s.flags := rfl
@[simp] theorem jump_status (target : Byte) (s : State) : (jump target s).status = s.status := rfl
@[simp] theorem jump_haltReason (target : Byte) (s : State) : (jump target s).haltReason = s.haltReason := rfl
@[simp] theorem jump_mem (target : Byte) (s : State) : (jump target s).mem = s.mem := rfl
@[simp] theorem jump_output (target : Byte) (s : State) : (jump target s).output = s.output := rfl
@[simp] theorem jump_trace (target : Byte) (s : State) : (jump target s).trace = s.trace := rfl
@[simp] theorem jump_params (target : Byte) (s : State) : (jump target s).params = s.params := rfl

@[simp] theorem emit_regs (e : Event) (s : State) : (emit e s).regs = s.regs := rfl
@[simp] theorem emit_pc (e : Event) (s : State) : (emit e s).pc = s.pc := rfl
@[simp] theorem emit_sp (e : Event) (s : State) : (emit e s).sp = s.sp := rfl
@[simp] theorem emit_flags (e : Event) (s : State) : (emit e s).flags = s.flags := rfl
@[simp] theorem emit_status (e : Event) (s : State) : (emit e s).status = s.status := rfl
@[simp] theorem emit_haltReason (e : Event) (s : State) : (emit e s).haltReason = s.haltReason := rfl
@[simp] theorem emit_mem (e : Event) (s : State) : (emit e s).mem = s.mem := rfl
@[simp] theorem emit_output (e : Event) (s : State) : (emit e s).output = s.output ++ [e] := rfl
@[simp] theorem emit_trace (e : Event) (s : State) : (emit e s).trace = s.trace := rfl
@[simp] theorem emit_params (e : Event) (s : State) : (emit e s).params = s.params := rfl

theorem raise_regs (r : FaultReport) (s : State) : (raise r s).regs = s.regs := rfl
theorem raise_pc (r : FaultReport) (s : State) : (raise r s).pc = s.pc := rfl
theorem raise_sp (r : FaultReport) (s : State) : (raise r s).sp = s.sp := rfl
theorem raise_flags (r : FaultReport) (s : State) : (raise r s).flags = s.flags := rfl
theorem raise_status (r : FaultReport) (s : State) : (raise r s).status = .halted := rfl
theorem raise_haltReason (r : FaultReport) (s : State) : (raise r s).haltReason = .fault r := rfl
theorem raise_mem (r : FaultReport) (s : State) : (raise r s).mem = s.mem := rfl
theorem raise_output (r : FaultReport) (s : State) : (raise r s).output = s.output := rfl
theorem raise_trace (r : FaultReport) (s : State) : (raise r s).trace = s.trace := rfl
theorem raise_params (r : FaultReport) (s : State) : (raise r s).params = s.params := rfl

@[simp] theorem faulted_regs (s : State) (r : FaultReport) : (faulted s r).regs = s.regs := rfl
@[simp] theorem faulted_pc (s : State) (r : FaultReport) : (faulted s r).pc = s.pc := rfl
@[simp] theorem faulted_sp (s : State) (r : FaultReport) : (faulted s r).sp = s.sp := rfl
@[simp] theorem faulted_flags (s : State) (r : FaultReport) : (faulted s r).flags = s.flags := rfl
@[simp] theorem faulted_status (s : State) (r : FaultReport) : (faulted s r).status = .halted := rfl
@[simp] theorem faulted_haltReason (s : State) (r : FaultReport) : (faulted s r).haltReason = .fault r := rfl
@[simp] theorem faulted_mem (s : State) (r : FaultReport) : (faulted s r).mem = s.mem := rfl
@[simp] theorem faulted_output (s : State) (r : FaultReport) : (faulted s r).output = s.output := rfl
@[simp] theorem faulted_trace (s : State) (r : FaultReport) : (faulted s r).trace = s.trace := rfl
@[simp] theorem faulted_params (s : State) (r : FaultReport) : (faulted s r).params = s.params := rfl

@[simp] theorem sampleTrace_regs (s : State) : (sampleTrace s).regs = s.regs := rfl
@[simp] theorem sampleTrace_pc (s : State) : (sampleTrace s).pc = s.pc := rfl
@[simp] theorem sampleTrace_sp (s : State) : (sampleTrace s).sp = s.sp := rfl
@[simp] theorem sampleTrace_flags (s : State) : (sampleTrace s).flags = s.flags := rfl
@[simp] theorem sampleTrace_status (s : State) : (sampleTrace s).status = s.status := rfl
@[simp] theorem sampleTrace_haltReason (s : State) : (sampleTrace s).haltReason = s.haltReason := rfl
@[simp] theorem sampleTrace_mem (s : State) : (sampleTrace s).mem = s.mem := rfl
@[simp] theorem sampleTrace_output (s : State) : (sampleTrace s).output = s.output := rfl
@[simp] theorem sampleTrace_trace (s : State) : (sampleTrace s).trace = if s.params.traceEnable then s.trace ++ [traceSample s] else s.trace := rfl
@[simp] theorem sampleTrace_params (s : State) : (sampleTrace s).params = s.params := rfl

/-- The claims' transcription of R166 is what `raise` does. -/
@[simp] theorem raise_eq_faulted (r : FaultReport) (s : State) : raise r s = faulted s r := rfl

end Sys2Proof.Machine
end

