-- ==== Sys2Proof/Laws/Operands.lean ====
section
/-! SUPPORT. What the operand forms do: validated operands reach the handler, any other raises InvalidRegister (R94). -/

namespace Sys2Proof.Machine

theorem regIndex_of_lt {v : Byte} (h : v.toNat < 8) : regIndex v = some ⟨v.toNat, h⟩ := by simp [regIndex, h]

theorem regIndex_of_ge {v : Byte} (h : ¬ v.toNat < 8) : regIndex v = none := by simp [regIndex, h]

/-- R94: the operand is the register's own number. -/
theorem val_of_regIndex {v : Byte} {r : Fin 8} (h : regIndex v = some r) : v.toNat = r.val := by
  unfold regIndex at h
  split at h
  · simpa using congrArg Fin.val (Option.some.inj h)
  · cases h

theorem validRegByte_iff (v : Byte) : validRegByte v = true ↔ v.toNat < 8 := by simp [validRegByte, Config.numRegs]

theorem withReg_of_lt (o : Opcode) {a : Byte} (b : Option Byte) (s : State) (k : Fin 8 → State) (h : a.toNat < 8) :
    withReg o a b s k = k ⟨a.toNat, h⟩ := by simp [withReg, regIndex_of_lt h]

theorem withReg_of_ge (o : Opcode) {a : Byte} (b : Option Byte) (s : State) (k : Fin 8 → State) (h : ¬ a.toNat < 8) :
    withReg o a b s k = faulted s (instrReport .invalidRegister o (some a) b s) := by
  simp [withReg, regIndex_of_ge h]

theorem withRegs_of_lt (o : Opcode) {a b : Byte} (s : State) (k : Fin 8 → Fin 8 → State) (ha : a.toNat < 8)
    (hb : b.toNat < 8) : withRegs o a b s k = k ⟨a.toNat, ha⟩ ⟨b.toNat, hb⟩ := by
  simp [withRegs, withReg_of_lt _ _ _ _ ha, regIndex_of_lt hb]

theorem withRegs_of_ge (o : Opcode) {a b : Byte} (s : State) (k : Fin 8 → Fin 8 → State)
    (h : ¬ (a.toNat < 8 ∧ b.toNat < 8)) :
    withRegs o a b s k = faulted s (instrReport .invalidRegister o (some a) (some b) s) := by
  by_cases ha : a.toNat < 8
  · have hb : ¬ b.toNat < 8 := fun hb => h ⟨ha, hb⟩
    simp [withRegs, withReg_of_lt _ _ _ _ ha, regIndex_of_ge hb]
  · exact withReg_of_ge o _ s _ ha

/-- R94: what one register operand can lead to. -/
theorem withReg_cases (o : Opcode) (a : Byte) (b : Option Byte) (s : State) (k : Fin 8 → State) :
    (∃ r, regIndex a = some r ∧ withReg o a b s k = k r) ∨
    (regIndex a = none ∧ withReg o a b s k = faulted s (instrReport .invalidRegister o (some a) b s)) := by
  unfold withReg
  cases regIndex a with
  | some r => exact .inl ⟨r, rfl, rfl⟩
  | none => exact .inr ⟨rfl, rfl⟩

/-- R94: what two register operands can lead to. -/
theorem withRegs_cases (o : Opcode) (a b : Byte) (s : State) (k : Fin 8 → Fin 8 → State) :
    (∃ ra rb, regIndex a = some ra ∧ regIndex b = some rb ∧ withRegs o a b s k = k ra rb) ∨
    ((regIndex a = none ∨ regIndex b = none) ∧
      withRegs o a b s k = faulted s (instrReport .invalidRegister o (some a) (some b) s)) := by
  unfold withRegs withReg
  cases regIndex a with
  | none => exact .inr ⟨.inl rfl, rfl⟩
  | some ra =>
    cases regIndex b with
    | none => exact .inr ⟨.inr rfl, rfl⟩
    | some rb => exact .inl ⟨ra, rb, rfl, rfl, rfl⟩

theorem readReg_eq (s : State) (r : Fin 8) : readReg s r = s.regs[r.val] := rfl

/-- R140: the store address is one below `sp`, when `sp` is not 0. -/
theorem pushAddress_add_one (s : State) (h : 0 < s.sp.toNat) : pushAddress s + 1 = s.sp.toNat := by
  unfold pushAddress pushPointer
  have := s.sp.isLt
  have h1 : (1 : Word9).toNat = 1 := rfl
  rw [BitVec.toNat_sub, h1]
  omega

end Sys2Proof.Machine
end

