-- ==== Sys2Proof/Laws/Alu.lean ====
section
/-! SUPPORT. The ALU block (R116 to R118): what narrowing and the commit answer. -/

namespace Sys2Proof.Machine

/-- R117: a natural result is written modulo 256. -/
theorem narrow_nat (ov : ArithOverflow) (n : Nat) (h : ov = .wrap ∨ n ≤ 255) :
    narrow ov (n : Int) = .result (BitVec.ofNat 8 (n % 256)) := by
  have hv : BitVec.ofInt 8 (n : Int) = BitVec.ofNat 8 (n % 256) := by
    apply BitVec.eq_of_toNat_eq
    simp only [BitVec.toNat_ofInt, BitVec.toNat_ofNat]
    omega
  unfold narrow
  cases ov with
  | wrap => simp only [hv]
  | fault =>
    have : n ≤ 255 := by simpa using h
    simp only [hv]
    exact if_neg (by omega)

/-- R118: in the variant a result above 255 faults. -/
theorem narrow_nat_overflow (n : Nat) (h : 255 < n) : narrow .fault (n : Int) = .fault .arithmeticOverflow := by
  unfold narrow
  exact if_pos (by omega)

/-- R117: a difference is written modulo 256. -/
theorem narrow_sub (ov : ArithOverflow) (m n : Nat) (hm : m < 256) (hn : n < 256) (h : ov = .wrap ∨ n ≤ m) :
    narrow ov ((m : Int) - n) = .result (BitVec.ofNat 8 ((m + 256 - n) % 256)) := by
  have hv : BitVec.ofInt 8 ((m : Int) - n) = BitVec.ofNat 8 ((m + 256 - n) % 256) := by
    apply BitVec.eq_of_toNat_eq
    simp only [BitVec.toNat_ofInt, BitVec.toNat_ofNat]
    omega
  unfold narrow
  cases ov with
  | wrap => simp only [hv]
  | fault =>
    have : n ≤ m := by simpa using h
    simp only [hv]
    exact if_neg (by omega)

/-- R118: in the variant a negative difference faults. -/
theorem narrow_sub_overflow (m n : Nat) (h : m < n) : narrow .fault ((m : Int) - n) = .fault .arithmeticOverflow := by
  unfold narrow
  exact if_pos (by omega)

/-- R117, R118: narrowing answers a result or ArithmeticOverflow, the latter in the variant only. -/
theorem narrow_cases (ov : ArithOverflow) (x : Int) :
    (∃ r, narrow ov x = .result r) ∨ (narrow ov x = .fault .arithmeticOverflow ∧ ov = .fault) := by
  unfold narrow
  cases ov with
  | wrap => exact .inl ⟨_, rfl⟩
  | fault => dsimp only; split <;> simp

theorem aluDiv_cases (u v : Byte) :
    (∃ r, aluDiv u v = .result r) ∨ (aluDiv u v = .fault .divisionByZero ∧ v = 0) := by
  unfold aluDiv
  split <;> simp_all

theorem aluMod_cases (u v : Byte) :
    (∃ r, aluMod u v = .result r) ∨ (aluMod u v = .fault .divisionByZero ∧ v = 0) := by
  unfold aluMod
  split <;> simp_all

@[simp] theorem aluCommit_result (o : Opcode) (a b : Byte) (ra : Fin 8) (s : State) (r : Byte) :
    aluCommit o a b ra s (.result r) = advance o.width (writeReg s ra r) := rfl

@[simp] theorem aluCommit_flags (o : Opcode) (a b : Byte) (ra : Fin 8) (s : State) (f : Flags) :
    aluCommit o a b ra s (.flags f) = advance o.width { s with flags := f } := rfl

@[simp] theorem aluCommit_fault (o : Opcode) (a b : Byte) (ra : Fin 8) (s : State) (k : FaultKind) :
    aluCommit o a b ra s (.fault k) = faulted s (instrReport k o (some a) (some b) s) := rfl

/-- R115: the three flags are the three unsigned comparisons. -/
theorem compareFlags_eq (u v : Byte) : compareFlags u v =
    { e := decide (u.toNat = v.toNat), l := decide (u.toNat < v.toNat), g := decide (u.toNat > v.toNat) } := by
  unfold compareFlags
  split
  · simp_all
  · split
    · simp_all [Nat.le_of_lt]
    · simp_all; omega

theorem compareFlags_atMostOne (u v : Byte) : Flags.atMostOne (compareFlags u v) = true := by
  unfold compareFlags
  split
  · rfl
  · split <;> rfl

end Sys2Proof.Machine
end

