-- ==== Sys2Proof/Laws/Decode.lean ====
section
/-! SUPPORT. The dispatch table's rows, and what decode answers, said once by the number of bytes an entry declares. -/

namespace Sys2Proof

/-- R74, R76: no two rows share an opcode byte, so each byte dispatches to its own row. -/
@[simp] theorem dispatch_byte (o : Opcode) : dispatch o.byte = some o := by
  cases o <;> decide

/-- R74: a dispatch entry is the row whose byte was looked up. -/
theorem byte_of_dispatch {op : Byte} {o : Opcode} (h : dispatch op = some o) : o.byte = op := by
  simpa using List.find?_some h

theorem width_pos (o : Opcode) : 1 ≤ o.width := by cases o <;> decide

theorem width_le (o : Opcode) : o.width ≤ 3 := by cases o <;> decide

/-- R92: nothing to fetch. -/
@[simp] theorem decode_nil : decode [] = .error .noOpcode := rfl

/-- R92: a byte with no entry. -/
theorem decode_of_none {op : Byte} (rest : List Byte) (h : dispatch op = none) :
    decode (op :: rest) = .error (.invalidOpcode op) := by
  simp [decode, h]

/-- R93: an entry whose declared operand bytes are there decodes to its instruction, whatever follows. -/
theorem decode_of_width {op : Byte} {o : Opcode} (bytes : List Byte) (h : dispatch op = some o)
    (hw : o.width ≤ bytes.length + 1) :
    decode (op :: bytes) =
      .ok (o.instr (bytes[0]?.getD 0) (bytes[1]?.getD 0), bytes.drop (o.width - 1)) := by
  obtain rfl := byte_of_dispatch h
  match bytes with
  | [] => cases o <;> first | rfl | simp [Opcode.width, Opcode.format, Format.width] at hw
  | [a] => cases o <;> first | rfl | simp [Opcode.width, Opcode.format, Format.width] at hw
  | a :: b :: rest => cases o <;> rfl

/-- R93: an entry with a declared operand byte missing: the first missing one is named. -/
theorem decode_of_short {op : Byte} {o : Opcode} (bytes : List Byte) (h : dispatch op = some o)
    (hw : bytes.length + 1 < o.width) : decode (op :: bytes) = .error (.missingOperand op (bytes.length + 1)) := by
  obtain rfl := byte_of_dispatch h
  have := width_le o
  match bytes with
  | [] => cases o <;> first | rfl | simp [Opcode.width, Opcode.format, Format.width] at hw
  | [a] => cases o <;> first | rfl | simp [Opcode.width, Opcode.format, Format.width] at hw
  | a :: b :: rest => simp only [List.length_cons] at hw; omega

/-- The instruction of an entry belongs to that entry. -/
@[simp] theorem instr_opcode (o : Opcode) (a b : Byte) : (o.instr a b).opcode = o := by cases o <;> rfl

end Sys2Proof
end

