-- ==== Sys2Proof/Laws/Exec.lean ====
section
/-! SUPPORT. What running an instruction can do, said once: it completes with its own effect, or it raises a fault of its kind. -/

namespace Sys2Proof.Machine

/-- Every meaning answers a next state. -/
theorem exec_next (i : Instr) (s : State) : ∃ t, exec i s = .next t := by
  cases i <;> exact ⟨_, rfl⟩

/-- The effect of an instruction that raises no fault (R110 to R152). The value an arithmetic instruction writes is left open
here; the value lemmas of Laws/Alu.lean give it. -/
def Completes : Instr → State → State → Prop
  | .hlt, s, t => t = { s with output := s.output ++ [.haltNotice], status := .halted, haltReason := .clean }
  | .ldi a b, s, t => ∃ r, regIndex a = some r ∧ t = advance 3 (writeReg s r b)
  | .prn a, s, t => ∃ r, regIndex a = some r ∧ t = advance 2 (emit (.out (readReg s r)) s)
  | .push a, s, t => ∃ r, regIndex a = some r ∧ s.params.stackFloor < s.sp.toNat ∧ pushAddress s < 256 ∧
      t = advance 2 { s with sp := pushPointer s, mem := s.mem.write (pushAddress s) (readReg s r) }
  | .pop a, s, t => ∃ r, regIndex a = some r ∧ s.sp.toNat < s.params.spEmpty.toNat ∧ s.sp.toNat < 256 ∧
      t = advance 2 { writeReg s r (s.mem.read s.sp.toNat) with sp := s.sp + 1 }
  | .jmp a, s, t => t = jump a s
  | .jeq a, s, t => ∃ r, regIndex a = some r ∧ t = if s.flags.e then jump (readReg s r) s else advance 2 s
  | .jne a, s, t => ∃ r, regIndex a = some r ∧ t = if s.flags.e then advance 2 s else jump (readReg s r) s
  | .cmp a b, s, t => ∃ ra rb, regIndex a = some ra ∧ regIndex b = some rb ∧
      t = advance 3 { s with flags := compareFlags (readReg s ra) (readReg s rb) }
  | .add a b, s, t => ∃ ra rb, regIndex a = some ra ∧ regIndex b = some rb ∧ ∃ v, t = advance 3 (writeReg s ra v) ∧
      aluAdd s.params.arithOverflow (readReg s ra) (readReg s rb) = .result v
  | .sub a b, s, t => ∃ ra rb, regIndex a = some ra ∧ regIndex b = some rb ∧ ∃ v, t = advance 3 (writeReg s ra v) ∧
      aluSub s.params.arithOverflow (readReg s ra) (readReg s rb) = .result v
  | .mul a b, s, t => ∃ ra rb, regIndex a = some ra ∧ regIndex b = some rb ∧ ∃ v, t = advance 3 (writeReg s ra v) ∧
      aluMul s.params.arithOverflow (readReg s ra) (readReg s rb) = .result v
  | .div a b, s, t => ∃ ra rb, regIndex a = some ra ∧ regIndex b = some rb ∧ ∃ v, t = advance 3 (writeReg s ra v) ∧
      aluDiv (readReg s ra) (readReg s rb) = .result v
  | .mod a b, s, t => ∃ ra rb, regIndex a = some ra ∧ regIndex b = some rb ∧ ∃ v, t = advance 3 (writeReg s ra v) ∧
      aluMod (readReg s ra) (readReg s rb) = .result v

/-- The faults an instruction's meaning can raise, with when (R94, R113, R114, R118, R140, R141). -/
def Raises (i : Instr) (s : State) (k : FaultKind) : Prop :=
  match k with
  | .invalidRegister => i.wellFormed = false
  | .divisionByZero => i.opcode = .div ∨ i.opcode = .mod
  | .stackOverflow => i.opcode = .push ∧ s.sp.toNat ≤ s.params.stackFloor
  | .stackUnderflow => i.opcode = .pop ∧ s.params.spEmpty.toNat ≤ s.sp.toNat
  | .addressOutOfRange =>
    (i.opcode = .push ∧ s.params.stackFloor < s.sp.toNat ∧ 256 ≤ pushAddress s) ∨
    (i.opcode = .pop ∧ s.sp.toNat < s.params.spEmpty.toNat ∧ 256 ≤ s.sp.toNat)
  | .arithmeticOverflow => s.params.arithOverflow = .fault ∧ (i.opcode = .add ∨ i.opcode = .sub ∨ i.opcode = .mul)
  | .invalidOpcode => False
  | .unsupportedOperation => False
  | .loadError => False

/-- The outcome of running an instruction: its effect, or a fault that names the instruction and its pc. -/
def ExecOutcome (i : Instr) (s t : State) : Prop :=
  Completes i s t ∨
  ∃ r, t = faulted s r ∧ r.p = some s.pc ∧ r.opcode = some i.opcode.byte ∧ Raises i s r.kind

theorem validRegByte_of_regIndex {v : Byte} (h : regIndex v = none) : validRegByte v = false := by
  unfold regIndex at h
  split at h
  · cases h
  · rename_i hv
    simpa [validRegByte, Config.numRegs] using hv

theorem pushReg_cases (a : Byte) (r : Fin 8) (s : State) :
    (s.params.stackFloor < s.sp.toNat ∧ pushAddress s < 256 ∧ pushReg a r s =
      advance 2 { s with sp := pushPointer s, mem := s.mem.write (pushAddress s) (readReg s r) }) ∨
    (s.sp.toNat ≤ s.params.stackFloor ∧ pushReg a r s = faulted s (instrReport .stackOverflow .push (some a) none s)) ∨
    (s.params.stackFloor < s.sp.toNat ∧ 256 ≤ pushAddress s ∧
      pushReg a r s = faulted s (addressReport (some Opcode.push.byte) (pushAddress s) s)) := by
  unfold pushReg
  by_cases h : s.sp.toNat < s.params.stackFloor + 1
  · exact .inr (.inl ⟨by omega, by simp [h]⟩)
  · by_cases hx : pushAddress s < 256
    · refine .inl ⟨by omega, hx, ?_⟩
      simp only [h, ↓reduceIte, memWrite_eq, hx]
      rfl
    · refine .inr (.inr ⟨by omega, by omega, ?_⟩)
      simp [h, memWrite_eq, hx]

theorem popReg_cases (a : Byte) (r : Fin 8) (s : State) :
    (s.sp.toNat < s.params.spEmpty.toNat ∧ s.sp.toNat < 256 ∧ popReg a r s =
      advance 2 { writeReg s r (s.mem.read s.sp.toNat) with sp := s.sp + 1 }) ∨
    (s.params.spEmpty.toNat ≤ s.sp.toNat ∧ popReg a r s = faulted s (instrReport .stackUnderflow .pop (some a) none s)) ∨
    (s.sp.toNat < s.params.spEmpty.toNat ∧ 256 ≤ s.sp.toNat ∧
      popReg a r s = faulted s (addressReport (some Opcode.pop.byte) s.sp.toNat s)) := by
  unfold popReg popAddress
  by_cases h : s.params.spEmpty.toNat ≤ s.sp.toNat
  · exact .inr (.inl ⟨h, by simp [h]⟩)
  · by_cases hx : s.sp.toNat < 256
    · refine .inl ⟨by omega, hx, ?_⟩
      simp only [h, ↓reduceIte, memRead_of_lt _ _ hx]
      rfl
    · refine .inr (.inr ⟨by omega, by omega, ?_⟩)
      simp [h, memRead_of_ge _ _ (Nat.le_of_not_lt hx)]

/-- The five arithmetic instructions at once: a result is written or the operation's own fault is raised. -/
theorem aluStep_outcome {i : Instr} {o : Opcode} {a b : Byte} {s : State} {op : Byte → Byte → AluOut}
    (ho : i.opcode = o) (hw : o.width = 3) (hwf : i.wellFormed = (validRegByte a && validRegByte b))
    (hop : ∀ u v, (∃ r, op u v = .result r) ∨ ∃ k, op u v = .fault k ∧ Raises i s k)
    (hc : ∀ t, (∃ ra rb, regIndex a = some ra ∧ regIndex b = some rb ∧ ∃ v, t = advance 3 (writeReg s ra v) ∧
      op (readReg s ra) (readReg s rb) = .result v) → Completes i s t) :
    ExecOutcome i s (aluStep o op a b s) := by
  subst ho
  rcases withRegs_cases i.opcode a b s
    (fun ra rb => aluCommit i.opcode a b ra s (op (readReg s ra) (readReg s rb))) with ⟨ra, rb, ha, hb, h⟩ | ⟨hn, h⟩
  · rcases hop (readReg s ra) (readReg s rb) with ⟨v, hv⟩ | ⟨k, hk, hr⟩
    · exact .inl (hc _ ⟨ra, rb, ha, hb, v, by rw [aluStep, h, hv, aluCommit_result, hw], hv⟩)
    · exact .inr ⟨_, by rw [aluStep, h, hk, aluCommit_fault], rfl, rfl, hr⟩
  · refine .inr ⟨_, h, rfl, rfl, ?_⟩
    rcases hn with hn | hn <;> simp [instrReport, Raises, hwf, validRegByte_of_regIndex hn]

/-- The inversion lemma of `exec`. -/
theorem exec_cases {i : Instr} {s t : State} (h : exec i s = .next t) : ExecOutcome i s t := by
  cases i with
  | hlt => injection h with h; exact .inl h.symm
  | jmp a => injection h with h; exact .inl h.symm
  | ldi a b =>
    injection h with h; subst h
    rcases withReg_cases .ldi a (some b) s (fun r => advance Opcode.ldi.width (writeReg s r b)) with ⟨r, hr, h⟩ | ⟨hn, h⟩
    · exact .inl ⟨r, hr, h⟩
    · exact .inr ⟨_, h, rfl, rfl, validRegByte_of_regIndex hn⟩
  | prn a =>
    injection h with h; subst h
    rcases withReg_cases .prn a none s (fun r => advance Opcode.prn.width (emit (.out (readReg s r)) s)) with
      ⟨r, hr, h⟩ | ⟨hn, h⟩
    · exact .inl ⟨r, hr, h⟩
    · exact .inr ⟨_, h, rfl, rfl, validRegByte_of_regIndex hn⟩
  | push a =>
    injection h with h; subst h
    rcases withReg_cases .push a none s (fun r => pushReg a r s) with ⟨r, hr, h⟩ | ⟨hn, h⟩
    · rw [h]
      rcases pushReg_cases a r s with ⟨h1, h2, h3⟩ | ⟨h1, h3⟩ | ⟨h1, h2, h3⟩
      · exact .inl ⟨r, hr, h1, h2, h3⟩
      · exact .inr ⟨_, h3, rfl, rfl, rfl, h1⟩
      · exact .inr ⟨_, h3, rfl, rfl, .inl ⟨rfl, h1, h2⟩⟩
    · exact .inr ⟨_, h, rfl, rfl, validRegByte_of_regIndex hn⟩
  | pop a =>
    injection h with h; subst h
    rcases withReg_cases .pop a none s (fun r => popReg a r s) with ⟨r, hr, h⟩ | ⟨hn, h⟩
    · rw [h]
      rcases popReg_cases a r s with ⟨h1, h2, h3⟩ | ⟨h1, h3⟩ | ⟨h1, h2, h3⟩
      · exact .inl ⟨r, hr, h1, h2, h3⟩
      · exact .inr ⟨_, h3, rfl, rfl, rfl, h1⟩
      · exact .inr ⟨_, h3, rfl, rfl, .inr ⟨rfl, h1, h2⟩⟩
    · exact .inr ⟨_, h, rfl, rfl, validRegByte_of_regIndex hn⟩
  | jeq a =>
    injection h with h; subst h
    rcases withReg_cases .jeq a none s (fun r => branchReg .jeq s.flags.e r s) with ⟨r, hr, h⟩ | ⟨hn, h⟩
    · exact .inl ⟨r, hr, h⟩
    · exact .inr ⟨_, h, rfl, rfl, validRegByte_of_regIndex hn⟩
  | jne a =>
    injection h with h; subst h
    rcases withReg_cases .jne a none s (fun r => branchReg .jne (!s.flags.e) r s) with ⟨r, hr, h⟩ | ⟨hn, h⟩
    · refine .inl ⟨r, hr, h.trans ?_⟩
      cases s.flags.e <;> rfl
    · exact .inr ⟨_, h, rfl, rfl, validRegByte_of_regIndex hn⟩
  | cmp a b =>
    injection h with h; subst h
    rcases withRegs_cases .cmp a b s
      (fun ra rb => aluCommit .cmp a b ra s (aluCmp (readReg s ra) (readReg s rb))) with ⟨ra, rb, ha, hb, h⟩ | ⟨hn, h⟩
    · exact .inl ⟨ra, rb, ha, hb, h⟩
    · refine .inr ⟨_, h, rfl, rfl, ?_⟩
      rcases hn with hn | hn <;> simp [instrReport, Raises, Instr.wellFormed, validRegByte_of_regIndex hn]
  | add a b =>
    injection h with h; subst h
    refine aluStep_outcome rfl rfl rfl (fun u v => ?_) (fun t h => h)
    exact (narrow_cases s.params.arithOverflow _).imp_right fun ⟨h1, h2⟩ => ⟨_, h1, h2, .inl rfl⟩
  | sub a b =>
    injection h with h; subst h
    refine aluStep_outcome rfl rfl rfl (fun u v => ?_) (fun t h => h)
    exact (narrow_cases s.params.arithOverflow _).imp_right fun ⟨h1, h2⟩ => ⟨_, h1, h2, .inr (.inl rfl)⟩
  | mul a b =>
    injection h with h; subst h
    refine aluStep_outcome rfl rfl rfl (fun u v => ?_) (fun t h => h)
    exact (narrow_cases s.params.arithOverflow _).imp_right fun ⟨h1, h2⟩ => ⟨_, h1, h2, .inr (.inr rfl)⟩
  | div a b =>
    injection h with h; subst h
    refine aluStep_outcome rfl rfl rfl (fun u v => ?_) (fun t h => h)
    exact (aluDiv_cases u v).imp_right fun ⟨h1, _⟩ => ⟨_, h1, .inl rfl⟩
  | mod a b =>
    injection h with h; subst h
    refine aluStep_outcome rfl rfl rfl (fun u v => ?_) (fun t h => h)
    exact (aluMod_cases u v).imp_right fun ⟨h1, _⟩ => ⟨_, h1, .inr rfl⟩

end Sys2Proof.Machine
end

