-- ==== Sys2Proof/Laws/Fetch.lean ====
section
/-! SUPPORT. What fetching and one cycle can do (R91 to R97). -/

namespace Sys2Proof.Machine

/-- R91: past the top there is no byte to read. -/
theorem candidateBytes_of_ge (s : State) (h : 256 ≤ s.pc.toNat) : candidateBytes s = [] := by
  simp [candidateBytes, memRead_eq, Nat.not_lt.mpr h, show ¬ s.pc.toNat + 1 < 256 by omega,
    show ¬ s.pc.toNat + 2 < 256 by omega]

/-- R92, R93: the opcode byte and the operand candidates that exist. -/
theorem candidateBytes_of_lt (s : State) (h : s.pc.toNat < 256) :
    candidateBytes s = s.mem.read s.pc.toNat ::
      (if s.pc.toNat + 1 < 256 then s.mem.read (s.pc.toNat + 1) ::
        (if s.pc.toNat + 2 < 256 then [s.mem.read (s.pc.toNat + 2)] else []) else []) := by
  by_cases h1 : s.pc.toNat + 1 < 256
  · by_cases h2 : s.pc.toNat + 2 < 256 <;> simp [candidateBytes, memRead_eq, h, h1, h2]
  · simp [candidateBytes, memRead_eq, h, h1, show ¬ s.pc.toNat + 2 < 256 by omega]

/-- R90: in HALTED nothing happens. -/
theorem step_of_halted {s : State} (h : s.status = .halted) : step s = .next s := by simp [step, h]

/-- R97: a RUNNING cycle raises the fetch's fault or runs the fetched instruction, after the trace sample. -/
theorem step_of_error {s : State} {r : FaultReport} (h : s.status = .running) (hf : fetch s = .error r) :
    step s = .next (faulted (sampleTrace s) r) := by simp [step, h, hf]

theorem step_of_ok {s : State} {i : Instr} (h : s.status = .running) (hf : fetch s = .ok i) :
    step s = exec i (sampleTrace s) := by simp [step, h, hf]

/-- R91. -/
theorem fetch_of_ge (s : State) (h : 256 ≤ s.pc.toNat) : fetch s = .error (addressReport none s.pc.toNat s) := by
  simp [fetch, candidateBytes_of_ge s h]

/-- R92. -/
theorem fetch_of_none (s : State) (h : s.pc.toNat < 256) (hd : dispatch (s.mem.read s.pc.toNat) = none) :
    fetch s = .error { kind := .invalidOpcode, p := some s.pc, opcode := some (s.mem.read s.pc.toNat) } := by
  simp [fetch, candidateBytes_of_lt s h, decode_of_none _ hd]

/-- R93: the first declared operand byte is past the top. -/
theorem fetch_of_short_one (s : State) {o : Opcode} (h : s.pc.toNat < 256) (hd : dispatch (s.mem.read s.pc.toNat) = some o)
    (hw : 2 ≤ o.width) (h1 : 256 ≤ s.pc.toNat + 1) :
    fetch s = .error (addressReport (some o.byte) (s.pc.toNat + 1) s) := by
  have hb := byte_of_dispatch hd
  have hs := decode_of_short [] hd (by simp; omega)
  simp only [List.length_nil] at hs
  simp [fetch, candidateBytes_of_lt s h, Nat.not_lt.mpr h1, hs, hb]

/-- R93: the second declared operand byte is past the top. -/
theorem fetch_of_short_two (s : State) {o : Opcode} (h1 : s.pc.toNat + 1 < 256)
    (hd : dispatch (s.mem.read s.pc.toNat) = some o) (hw : o.width = 3) (h2 : 256 ≤ s.pc.toNat + 2) :
    fetch s = .error (addressReport (some o.byte) (s.pc.toNat + 2) s) := by
  have hb := byte_of_dispatch hd
  have hs := decode_of_short [s.mem.read (s.pc.toNat + 1)] hd (by simp [hw])
  simp only [List.length_cons, List.length_nil] at hs
  simp [fetch, candidateBytes_of_lt s (by omega), h1, Nat.not_lt.mpr h2, hs, hb]

theorem instr_congr (o : Opcode) {a a' b b' : Byte} (ha : 2 ≤ o.width → a = a') (hb : o.width = 3 → b = b') :
    o.instr a b = o.instr a' b' := by
  cases o <;> simp_all [Opcode.width, Opcode.format, Format.width, Opcode.instr]

/-- R93: every declared byte is there. -/
theorem fetch_of_fits (s : State) {o : Opcode} (hd : dispatch (s.mem.read s.pc.toNat) = some o)
    (hw : s.pc.toNat + o.width ≤ 256) :
    fetch s = .ok (o.instr (s.mem.read (s.pc.toNat + 1)) (s.mem.read (s.pc.toNat + 2))) := by
  have hpos := width_pos o
  have hle := width_le o
  have h : s.pc.toNat < 256 := by omega
  simp only [fetch, candidateBytes_of_lt s h]
  by_cases h1 : s.pc.toNat + 1 < 256
  · by_cases h2 : s.pc.toNat + 2 < 256
    · rw [if_pos h1, if_pos h2, decode_of_width _ hd (by simpa using hle)]
      simp
    · rw [if_pos h1, if_neg h2, decode_of_width _ hd (by simp; omega)]
      exact congrArg _ (instr_congr o (fun _ => rfl) (fun h3 => absurd h3 (by omega)))
  · rw [if_neg h1, decode_of_width _ hd (by simp; omega)]
    exact congrArg _ (instr_congr o (fun h3 => absurd h3 (by omega)) (fun h3 => absurd h3 (by omega)))

/-- What one cycle of a RUNNING core can do: run the instruction that fits at pc, or raise one of the cycle's own faults. -/
theorem step_cases {s t : State} (hr : s.status = .running) (h : step s = .next t) :
    (∃ i : Instr, s.pc.toNat + i.opcode.width ≤ 256 ∧ dispatch (s.mem.read s.pc.toNat) = some i.opcode ∧
      exec i (sampleTrace s) = .next t) ∨
    (∃ r : FaultReport, t = faulted (sampleTrace s) r ∧ r.p = some s.pc ∧
      ((r.kind = .addressOutOfRange ∧ (r.opcode = none → 256 ≤ s.pc.toNat)) ∨
        (r.kind = .invalidOpcode ∧ ∃ op, r.opcode = some op ∧ dispatch op = none))) := by
  by_cases hp : 256 ≤ s.pc.toNat
  · rw [step_of_error hr (fetch_of_ge s hp)] at h
    injection h with h
    exact .inr ⟨_, h.symm, rfl, .inl ⟨rfl, fun _ => hp⟩⟩
  · replace hp : s.pc.toNat < 256 := by omega
    cases hd : dispatch (s.mem.read s.pc.toNat) with
    | none =>
      rw [step_of_error hr (fetch_of_none s hp hd)] at h
      injection h with h
      exact .inr ⟨_, h.symm, rfl, .inr ⟨rfl, _, rfl, hd⟩⟩
    | some o =>
      have hle := width_le o
      by_cases hw : s.pc.toNat + o.width ≤ 256
      · rw [step_of_ok hr (fetch_of_fits s hd hw)] at h
        exact .inl ⟨_, by simpa using hw, by simp, h⟩
      · by_cases h1 : s.pc.toNat + 1 < 256
        · rw [step_of_error hr (fetch_of_short_two s h1 hd (by omega) (by omega))] at h
          injection h with h
          exact .inr ⟨_, h.symm, rfl, .inl ⟨rfl, fun h => nomatch h⟩⟩
        · rw [step_of_error hr (fetch_of_short_one s hp hd (by omega) (by omega))] at h
          injection h with h
          exact .inr ⟨_, h.symm, rfl, .inl ⟨rfl, fun h => nomatch h⟩⟩

end Sys2Proof.Machine
end

