-- ==== Sys2Proof/Laws/Load.lean ====
section
/-! SUPPORT. What a load leaves, and that every operation that changes memory keeps its canonical form. -/

namespace Sys2Proof.Machine

/-- R190: a load that fits in the RAM resets everything. -/
theorem load_of_le (s : State) {bytes : List Byte} (h : bytes.length ≤ 256) : s.load bytes = loaded s.params bytes := by
  simp [State.load, Config.memSize, h]

/-- R195: a load that does not fit is a LoadError. -/
theorem load_of_gt (s : State) {bytes : List Byte} (h : 256 < bytes.length) :
    s.load bytes = faulted s (loadReport (.byteCount bytes.length)) := by
  simp [State.load, Config.memSize, Nat.not_le.mpr h]

theorem reset_mem_wf : State.reset.mem.wf := Memory.nil_wf

theorem loaded_mem_wf (p : Params) {bytes : List Byte} (h : bytes.length ≤ 256) : (loaded p bytes).mem.wf :=
  Memory.writeBytes_wf bytes [] 0 Memory.nil_wf (by simpa [Config.memSize] using h)

theorem memWrite_mem_wf {s t : State} {x : Nat} {v : Byte} (hs : s.mem.wf) (h : memWrite s x v = some t) : t.mem.wf := by
  rw [memWrite_eq] at h
  split at h
  · rename_i hx
    obtain rfl := Option.some.inj h
    exact Memory.write_wf s.mem x v hs hx
  · cases h

theorem withFetchWord_mem_wf (s : State) (nbits w : Nat) (hs : s.mem.wf) : (s.withFetchWord nbits w).mem.wf := by
  by_cases hp : s.pc.toNat ≤ Config.memSize
  · refine Memory.writeBytes_wf _ _ _ hs ?_
    have := List.length_take_le (Config.memSize - s.pc.toNat) (tableWordBytes nbits w)
    omega
  · have : Config.memSize - s.pc.toNat = 0 := by omega
    simpa [State.withFetchWord, this, Memory.writeBytes] using hs

end Sys2Proof.Machine
end

