-- ==== Sys2Proof/Laws/PerInstr.lean ====
section
/-! SUPPORT. Statements made per instruction: the family Width (R70, R71). -/

namespace Sys2Proof.Laws.Width

/-- R70, R71, R76: an encoding has the width its opcode fixes, 1 to 3 bytes, one of them the opcode. -/
def Statement (i : Instr) : Prop :=
  (encode i).length = i.opcode.width ∧ (encode i).head? = some i.opcode.byte ∧ i.operands.length + 1 = i.opcode.width

theorem hlt : Statement .hlt := ⟨rfl, rfl, rfl⟩
theorem ldi (ra imm : Byte) : Statement (.ldi ra imm) := ⟨rfl, rfl, rfl⟩
theorem prn (ra : Byte) : Statement (.prn ra) := ⟨rfl, rfl, rfl⟩
theorem push (ra : Byte) : Statement (.push ra) := ⟨rfl, rfl, rfl⟩
theorem pop (ra : Byte) : Statement (.pop ra) := ⟨rfl, rfl, rfl⟩
theorem jmp (addr : Byte) : Statement (.jmp addr) := ⟨rfl, rfl, rfl⟩
theorem jeq (ra : Byte) : Statement (.jeq ra) := ⟨rfl, rfl, rfl⟩
theorem jne (ra : Byte) : Statement (.jne ra) := ⟨rfl, rfl, rfl⟩
theorem cmp (ra rb : Byte) : Statement (.cmp ra rb) := ⟨rfl, rfl, rfl⟩
theorem add (ra rb : Byte) : Statement (.add ra rb) := ⟨rfl, rfl, rfl⟩
theorem sub (ra rb : Byte) : Statement (.sub ra rb) := ⟨rfl, rfl, rfl⟩
theorem mul (ra rb : Byte) : Statement (.mul ra rb) := ⟨rfl, rfl, rfl⟩
theorem div (ra rb : Byte) : Statement (.div ra rb) := ⟨rfl, rfl, rfl⟩
theorem mod (ra rb : Byte) : Statement (.mod ra rb) := ⟨rfl, rfl, rfl⟩

end Sys2Proof.Laws.Width
end

