-- ==== Sys2Proof/Machine/HostPort.lean ====
section
/-! DEFINITION. What the host shows of the core: fault codes (R160), exit status (R177), the output's text (R176) and the assembly text
of an instruction (R81). None of it is state of the core. -/

namespace Sys2Proof.Machine

/-- R160, D21: the numeric code of a fault kind. -/
def FaultKind.code : FaultKind → Nat
  | .invalidOpcode => 1
  | .divisionByZero => 2
  | .stackOverflow => 3
  | .stackUnderflow => 4
  | .unsupportedOperation => 5
  | .addressOutOfRange => 6
  | .invalidRegister => 7
  | .arithmeticOverflow => 8
  | .loadError => 9

/-- R177: the exit status as the spec gives it: success, or non-zero with the number not specified (U13). -/
inductive ExitStatus where
  | success
  | nonZero
  deriving DecidableEq, Repr

/-- R177, D18: the host's exit status at the end of a run; none while the machine runs. -/
def exitStatus (s : State) : Option ExitStatus :=
  match s.haltReason with
  | .none => none
  | .clean => some .success
  | .fault _ => some .nonZero

/-- R176, D24: how the host prints an event: Out(v) in decimal; the notice's text is a free value (U12, log entry 14). -/
def renderEvent : Event → String
  | .out v => toString v.toNat
  | .haltNotice => Config.haltNoticeText

/-- R81: a register in assembly text. -/
def regText (v : Byte) : String := "r" ++ toString v.toNat

/-- R81: the assembly form of an instruction, registers as `r0` to `r7`, immediates and addresses in decimal. -/
def assemblyText : Instr → String
  | .hlt => "HLT"
  | .ldi ra imm => "LDI " ++ regText ra ++ ", " ++ toString imm.toNat
  | .prn ra => "PRN " ++ regText ra
  | .push ra => "PUSH " ++ regText ra
  | .pop ra => "POP " ++ regText ra
  | .jmp addr => "JMP " ++ toString addr.toNat
  | .jeq ra => "JEQ " ++ regText ra
  | .jne ra => "JNE " ++ regText ra
  | .cmp ra rb => "CMP " ++ regText ra ++ ", " ++ regText rb
  | .add ra rb => "ADD " ++ regText ra ++ ", " ++ regText rb
  | .sub ra rb => "SUB " ++ regText ra ++ ", " ++ regText rb
  | .mul ra rb => "MUL " ++ regText ra ++ ", " ++ regText rb
  | .div ra rb => "DIV " ++ regText ra ++ ", " ++ regText rb
  | .mod ra rb => "MOD " ++ regText ra ++ ", " ++ regText rb

end Sys2Proof.Machine
end

