-- ==== Sys2Proof/Tests/Slice0.lean ====
section
/-! SUPPORT. Tests, each on one step or one word. Expected results are from the encodings of R71 and R76, the vectors of 95_test_vectors.md
(named Y, A, T, S, B, W there) or hand calculation from the rule cited; then one witness per statement with hypotheses. -/

open Sys2Proof Sys2Proof.Machine

namespace Sys2Proof.Tests

/-- The reset state with `bytes` at `pc`. -/
def start (pc : Word9) (bytes : List Byte) : State :=
  { State.reset with pc := pc, mem := Memory.writeBytes [] pc.toNat bytes }

/-- `start` with two registers set. -/
def startRegs (pc : Word9) (bytes : List Byte) (r : Fin 8) (u : Byte) (q : Fin 8) (v : Byte) : State :=
  writeReg (writeReg (start pc bytes) r u) q v

/-- The state with the overflow-checking variant on (R118). -/
def checking (s : State) : State := { s with params := { s.params with arithOverflow := .fault } }

/-- The next state, where there is one. -/
def nextOf (o : Host.Outcome State Fault Refusal) : Option State :=
  match o with
  | .next t => some t
  | .fault _ => none
  | .refused _ => none

/-- The state after one step. -/
def after (s : State) : Option State := nextOf (step s)

/-! ## Well-formedness: each check refuses an ill-formed term (R72) -/

theorem test_wf_ldi_ra : (Instr.ldi 8 0).wellFormed = false := by decide
theorem test_wf_prn_ra : (Instr.prn 8).wellFormed = false := by decide
theorem test_wf_push_ra : (Instr.push 255).wellFormed = false := by decide
theorem test_wf_pop_ra : (Instr.pop 8).wellFormed = false := by decide
theorem test_wf_jeq_ra : (Instr.jeq 9).wellFormed = false := by decide
theorem test_wf_jne_ra : (Instr.jne 8).wellFormed = false := by decide
theorem test_wf_cmp : (Instr.cmp 8 0).wellFormed = false ∧ (Instr.cmp 0 8).wellFormed = false := by decide
theorem test_wf_add : (Instr.add 8 0).wellFormed = false ∧ (Instr.add 0 8).wellFormed = false := by decide
theorem test_wf_sub : (Instr.sub 8 0).wellFormed = false ∧ (Instr.sub 0 8).wellFormed = false := by decide
theorem test_wf_mul : (Instr.mul 8 0).wellFormed = false ∧ (Instr.mul 0 8).wellFormed = false := by decide
theorem test_wf_div : (Instr.div 8 0).wellFormed = false ∧ (Instr.div 0 8).wellFormed = false := by decide
theorem test_wf_mod : (Instr.mod 8 0).wellFormed = false ∧ (Instr.mod 0 8).wellFormed = false := by decide
theorem test_wf_accepts : (Instr.ldi 7 255).wellFormed ∧ (Instr.jmp 255).wellFormed ∧ Instr.hlt.wellFormed ∧
    (Instr.mod 7 7).wellFormed := by decide

/-! ## Decoding: a word of every instruction written out from R71 and R76 -/

theorem test_decode_hlt : decode [0b00000001] = .ok (.hlt, []) := by decide
theorem test_decode_ldi : decode [0b10000010, 0b00000000, 0b00001000] = .ok (.ldi 0 8, []) := by decide
theorem test_decode_prn : decode [0b01000111, 0b00000011] = .ok (.prn 3, []) := by decide
theorem test_decode_push : decode [0b01000101, 0b00000110] = .ok (.push 6, []) := by decide
theorem test_decode_pop : decode [0b01000110, 0b00000001] = .ok (.pop 1, []) := by decide
theorem test_decode_jmp : decode [0b01010100, 0b11111110] = .ok (.jmp 254, []) := by decide
theorem test_decode_jeq : decode [0b01010101, 0b00000010] = .ok (.jeq 2, []) := by decide
theorem test_decode_jne : decode [0b01010110, 0b00000101] = .ok (.jne 5, []) := by decide
theorem test_decode_cmp : decode [0b10100111, 0b00000001, 0b00000100] = .ok (.cmp 1 4, []) := by decide
theorem test_decode_add : decode [0b10100000, 0b00000000, 0b00000010] = .ok (.add 0 2, []) := by decide
theorem test_decode_sub : decode [0b10100001, 0b00000001, 0b00000011] = .ok (.sub 1 3, []) := by decide
theorem test_decode_mul : decode [0b10100010, 0b00000000, 0b00000001] = .ok (.mul 0 1, []) := by decide
theorem test_decode_div : decode [0b10100011, 0b00000100, 0b00000101] = .ok (.div 4 5, []) := by decide
theorem test_decode_mod : decode [0b10100100, 0b00000000, 0b00000001] = .ok (.mod 0 1, []) := by decide
/-- R78 and vector Y3: 0x00, 0x50 and 0xFF have no entry. -/
theorem test_decode_invalid : decode [0x00, 1, 2] = .error (.invalidOpcode 0x00) ∧ decode [0x50] = .error (.invalidOpcode 0x50) ∧
    decode [0xFF, 1] = .error (.invalidOpcode 0xFF) := by decide
/-- R93: the first missing declared operand is named. -/
theorem test_decode_short : decode [0x82] = .error (.missingOperand 0x82 1) ∧ decode [0x82, 7] = .error (.missingOperand 0x82 2) ∧
    decode [0x47] = .error (.missingOperand 0x47 1) := by decide
/-- R73: the bytes after an instruction are left over. -/
theorem test_decode_rest : decode [0x47, 0x03, 0x01] = .ok (.prn 3, [0x01]) := by decide
/-- R71 with the table's numbering: byte k is bits 8k+7..8k. -/
theorem test_decode_table_word : decodeTableWord 24 0x080082 = some (.ldi 0 8) ∧ decodeTableWord 8 0x080082 = some (.ldi 0 0) ∧
    decodeTableWord 8 0xFF = none := by decide

/-! ## The cycle (vectors Y) -/

theorem test_Y1_fetch_at_256 : after (start 256 []) =
    some (faulted (start 256 []) { kind := .addressOutOfRange, p := some 256, addr := some 256 }) := by decide
theorem test_Y2_empty_memory : after State.reset =
    some (faulted State.reset { kind := .invalidOpcode, p := some 0, opcode := some 0x00 }) := by decide
theorem test_Y5_operand_at_256 : after (start 255 [0x47]) =
    some (faulted (start 255 [0x47]) { kind := .addressOutOfRange, p := some 255, opcode := some 0x47, addr := some 256 }) := by
  decide
theorem test_Y6_second_operand_at_256 : after (start 254 [0x82, 0x07]) =
    some (faulted (start 254 [0x82, 0x07])
      { kind := .addressOutOfRange, p := some 254, opcode := some 0x82, addr := some 256 }) := by decide
theorem test_Y7_pc_reaches_256 : (after (startRegs 254 [0x47, 0x00] 0 9 0 9)).map (fun t => (t.output, t.pc)) =
    some ([.out 9], 256) := by decide
theorem test_Y8_register_byte : after (start 0 [0x82, 0x08, 0x01]) =
    some (faulted (start 0 [0x82, 0x08, 0x01])
      { kind := .invalidRegister, p := some 0, opcode := some 0x82, a := some 8, b := some 1 }) := by decide
theorem test_Y9_second_register_byte : after (start 0 [0xA0, 0x00, 0x08]) =
    some (faulted (start 0 [0xA0, 0x00, 0x08])
      { kind := .invalidRegister, p := some 0, opcode := some 0xA0, a := some 0, b := some 8 }) := by decide
theorem test_Y10_untaken_branch_checks : after (start 0 [0x55, 0x09]) =
    some (faulted (start 0 [0x55, 0x09]) { kind := .invalidRegister, p := some 0, opcode := some 0x55, a := some 9 }) := by decide
theorem test_Y11_register_before_division : (after (start 0 [0xA3, 0x09, 0x01])).map (·.haltReason) =
    some (.fault { kind := .invalidRegister, p := some 0, opcode := some 0xA3, a := some 9, b := some 1 }) := by decide
theorem test_Y12_halted : after { start 0 [0x01] with status := .halted, haltReason := .clean } =
    some { start 0 [0x01] with status := .halted, haltReason := .clean } := by decide
/-- R178: with the trace on, the sample is taken before the fetch check, absent bytes shown as absent. -/
theorem test_trace_sample : (after { start 255 [0x01] with params := { Params.default with traceEnable := true } }).map (·.trace) =
    some [{ pc := 255, byte0 := some 1, byte1 := none, byte2 := none, regs := Vector.replicate 8 0 }] := by decide

/-! ## The instructions (vectors A, T, S, B) -/

theorem test_A1_add : (after (startRegs 0 [0xA0, 0, 1] 0 200 1 100)).map (fun t => (t.regs[0], t.pc)) = some (44, 3) := by decide
theorem test_A2_add_variant : after (checking (startRegs 0 [0xA0, 0, 1] 0 255 1 1)) =
    some (faulted (checking (startRegs 0 [0xA0, 0, 1] 0 255 1 1))
      { kind := .arithmeticOverflow, p := some 0, opcode := some 0xA0, a := some 0, b := some 1 }) := by decide
theorem test_A4_sub : (after (startRegs 0 [0xA1, 2, 3] 2 5 3 7)).map (fun t => (t.regs[2], t.regs[3])) = some (254, 7) := by decide
theorem test_A4_sub_variant : (after (checking (startRegs 0 [0xA1, 2, 3] 2 5 3 7))).map (fun t => (t.regs[2], t.status)) =
    some (5, .halted) := by decide
theorem test_A8_mul : (after (startRegs 0 [0xA2, 0, 1] 0 255 1 255)).map (·.regs[0]) = some 1 := by decide
theorem test_P8_mul_variant : (after (checking (startRegs 0 [0xA2, 0, 1] 0 20 1 13))).map (·.haltReason) =
    some (.fault { kind := .arithmeticOverflow, p := some 0, opcode := some 0xA2, a := some 0, b := some 1 }) := by decide
theorem test_A9_div : (after (startRegs 0 [0xA3, 4, 5] 4 7 5 2)).map (·.regs[4]) = some 3 := by decide
theorem test_A10_div_zero : after (startRegs 0 [0xA3, 4, 5] 4 7 5 0) =
    some (faulted (startRegs 0 [0xA3, 4, 5] 4 7 5 0)
      { kind := .divisionByZero, p := some 0, opcode := some 0xA3, a := some 4, b := some 5 }) := by decide
theorem test_A14_mod : (after (startRegs 0 [0xA4, 0, 1] 0 5 1 7)).map (·.regs[0]) = some 5 := by decide
theorem test_A13_mod_zero : (after (startRegs 0 [0xA4, 0, 1] 0 10 1 0)).map (fun t => (t.haltReason, t.regs[0], t.pc)) =
    some (.fault { kind := .divisionByZero, p := some 0, opcode := some 0xA4, a := some 0, b := some 1 }, 10, 0) := by decide
theorem test_A17_cmp : (after (startRegs 0 [0xA7, 0, 1] 0 3 1 2)).map (fun t => (t.flags, t.pc)) =
    some ({ e := false, l := false, g := true }, 3) := by decide
theorem test_A18_cmp_unsigned :
    (after { startRegs 0 [0xA7, 0, 1] 0 0 1 255 with flags := { e := true, l := false, g := false } }).map (·.flags) =
    some { e := false, l := true, g := false } := by decide
theorem test_T1_hlt : (after (start 5 [0x01])).map (fun t => (t.output, t.status, t.haltReason, t.pc)) =
    some ([.haltNotice], .halted, .clean, 5) := by decide
theorem test_Y4_hlt_at_255 : (after (start 255 [0x01])).map (fun t => (t.haltReason, t.pc)) = some (.clean, 255) := by decide
theorem test_T2_ldi : (after (start 0 [0x82, 7, 255])).map (fun t => (t.regs[7], t.pc)) = some (255, 3) := by decide
theorem test_T4_prn : (after (start 0 [0x47, 3])).map (fun t => (t.output, t.pc)) = some ([.out 0], 2) := by decide
theorem test_S2_push_over_itself : (after { startRegs 0 [0x45, 0] 0 9 0 9 with sp := 1 }).map (fun t => (t.sp, t.mem.read 0, t.pc)) =
    some (0, 9, 2) := by decide
theorem test_S3_push_overflow : (after { start 0 [0x45, 0] with sp := 0 }).map (fun t => (t.haltReason, t.sp)) =
    some (.fault { kind := .stackOverflow, p := some 0, opcode := some 0x45, a := some 0 }, 0) := by decide
theorem test_S4_pop : (after { start 0 [0x46, 1] with sp := 255, mem := [(0, 0x46), (1, 1), (255, 5)] }).map
    (fun t => (t.regs[1], t.sp, t.mem.read 255, t.pc)) = some (5, 256, 5, 2) := by decide
theorem test_S5_pop_underflow : after (start 0 [0x46, 1]) =
    some (faulted (start 0 [0x46, 1]) { kind := .stackUnderflow, p := some 0, opcode := some 0x46, a := some 1 }) := by decide
theorem test_B1_jmp : (after (start 6 [0x54, 0x0A])).map (·.pc) = some 10 := by decide
theorem test_B3_jeq : (after { startRegs 0 [0x55, 2] 2 40 2 40 with flags := { e := true, l := false, g := false } }).map (·.pc) =
    some 40 := by decide
theorem test_B4_jeq_untaken : (after (startRegs 0 [0x55, 2] 2 40 2 40)).map (·.pc) = some 2 := by decide
theorem test_B5_jne : (after (startRegs 27 [0x56, 5] 5 18 5 18)).map (·.pc) = some 18 := by decide
theorem test_B6_jne_untaken : (after { startRegs 27 [0x56, 5] 5 18 5 18 with flags := { e := true, l := false, g := false } }).map
    (·.pc) = some 29 := by decide
/-- S6: PUSH against a raised floor. -/
theorem test_S6_floor : (after { start 0 [0x45, 0] with sp := 20, params := { Params.default with stackFloor := 20 } }).map
    (·.haltReason) = some (.fault { kind := .stackOverflow, p := some 0, opcode := some 0x45, a := some 0 }) := by decide

/-! ## Memory, load and the host -/

/-- R52 and log entry 16: writing MEM_FILL removes the entry, so memory is canonical. -/
theorem test_memory_canonical : Memory.write (Memory.write [(3, 7)] 1 5) 3 0 = [(1, 5)] := by decide
/-- W1: the source's listing, with a comment and a blank line (R195). -/
theorem test_W1_listing : readListing ["10000010".toList, "00000000 # r0".toList, "# a comment".toList, "".toList, " 1000".toList] =
    .ok [0x82, 0x00, 0x08] := by decide
/-- C4: nine digits fail although the value fits. -/
theorem test_C4_nine_digits : readListing ["1".toList, "000000001".toList] = .error (.badLine "000000001".toList) := by decide
theorem test_load : ((State.reset.load [0x01]).mem, (State.reset.load [0x01]).status) = ([(0, 0x01)], Status.running) := by decide
/-- R177: the exit status of the three kinds of halt report. -/
theorem test_exit_status : exitStatus State.reset = none ∧ (after (start 0 [0x01])).map exitStatus = some (some .success) ∧
    (after State.reset).map exitStatus = some (some .nonZero) := by decide
/-- R176: Out(v) in decimal. -/
theorem test_render : renderEvent (.out 200) = "200" := by decide
/-- R81: W1's first instruction as text. -/
theorem test_assembly : assemblyText (.ldi 0 8) = "LDI r0, 8" := by decide
/-- R160: the codes at both ends of the table. -/
theorem test_fault_codes : FaultKind.invalidOpcode.code = 1 ∧ FaultKind.loadError.code = 9 := by decide
theorem test_withFetchWord : after (State.reset.withFetchWord 24 0x080082) =
    nextOf (exec (.ldi 0 8) (State.reset.withFetchWord 24 0x080082)) := by decide

/-! ## Witnesses: for each statement with hypotheses, concrete values that meet them, clause by clause -/

theorem witness_StepRunsTheDecodedInstruction : (start 0 [0x82, 0, 8]).status = .running ∧
    decode (candidateBytes (start 0 [0x82, 0, 8])) = .ok (.ldi 0 8, []) := by decide
theorem witness_StepRunsTheInstructionStoredAtPc : (start 253 [0xA0, 1, 2]).status = .running ∧
    ∀ (k : Nat) (h : k < (encode (.add 1 2)).length), (start 253 [0xA0, 1, 2]).pc.toNat + k < 256 ∧
      (start 253 [0xA0, 1, 2]).mem.read ((start 253 [0xA0, 1, 2]).pc.toNat + k) = (encode (.add 1 2))[k] := by decide
theorem witness_HaltedStepChangesNothing : (faulted State.reset { kind := .invalidOpcode }).status = .halted := by decide
theorem witness_FetchPastTheTopFaults : (start 256 []).status = .running ∧ 256 ≤ (start 256 []).pc.toNat := by decide
theorem witness_UnassignedOpcodeFaults : (start 255 [0xFF]).status = .running ∧ (start 255 [0xFF]).pc.toNat < 256 ∧
    dispatch ((start 255 [0xFF]).mem.read (start 255 [0xFF]).pc.toNat) = none := by decide
/-- The three clauses at their boundaries: a two-byte and a three-byte opcode at 255, a three-byte one at 254, and the instructions that
just fit. -/
theorem witness_DeclaredOperandBytesAreFetched :
    (dispatch ((start 255 [0x47]).mem.read 255) = some .prn ∧ 2 ≤ Opcode.prn.width) ∧
    (dispatch ((start 255 [0x82]).mem.read 255) = some .ldi ∧ 2 ≤ Opcode.ldi.width) ∧
    (dispatch ((start 254 [0x82, 7]).mem.read 254) = some .ldi ∧ Opcode.ldi.width = 3 ∧ 254 + 1 < 256) ∧
    (dispatch ((start 255 [0x01]).mem.read 255) = some .hlt ∧ 255 + Opcode.hlt.width ≤ 256) ∧
    (dispatch ((start 254 [0x47, 0]).mem.read 254) = some .prn ∧ 254 + Opcode.prn.width ≤ 256) ∧
    (dispatch ((start 253 [0x82, 7, 9]).mem.read 253) = some .ldi ∧ 253 + Opcode.ldi.width ≤ 256) := by decide
theorem witness_RegisterOperandsAreValidated_refused : (Instr.add 7 8).wellFormed = false := by decide
theorem witness_RegisterOperandsAreValidated_valid : (Instr.div 7 7).wellFormed = true ∧ State.reset.haltReason = .none ∧
    (nextOf (exec (.div 7 7) State.reset)).map (·.haltReason) =
      some (.fault { kind := .divisionByZero, p := some 0, opcode := some 0xA3, a := some 7, b := some 7 }) := by decide

/-- ADD: wrap on any sum, the variant on a sum of 255 and of 256. -/
theorem witness_AddWritesTheSum : (7 : Byte).toNat < 8 ∧ State.reset.params.arithOverflow = .wrap ∧
    (checking (startRegs 0 [] 0 255 7 0)).regs[0].toNat + (checking (startRegs 0 [] 0 255 7 0)).regs[7].toNat ≤ 255 ∧
    (checking (startRegs 0 [] 0 255 7 1)).params.arithOverflow = .fault ∧
    255 < (checking (startRegs 0 [] 0 255 7 1)).regs[0].toNat + (checking (startRegs 0 [] 0 255 7 1)).regs[7].toNat := by decide
/-- SUB: the variant on equal operands and one below. -/
theorem witness_SubWritesTheDifference : (7 : Byte).toNat < 8 ∧ State.reset.params.arithOverflow = .wrap ∧
    (checking (startRegs 0 [] 0 4 7 4)).regs[7].toNat ≤ (checking (startRegs 0 [] 0 4 7 4)).regs[0].toNat ∧
    (checking (startRegs 0 [] 0 4 7 5)).params.arithOverflow = .fault ∧
    (checking (startRegs 0 [] 0 4 7 5)).regs[0].toNat < (checking (startRegs 0 [] 0 4 7 5)).regs[7].toNat := by decide
/-- MUL: the variant on products of 255 and 256. -/
theorem witness_MulWritesTheProduct : (7 : Byte).toNat < 8 ∧ State.reset.params.arithOverflow = .wrap ∧
    (checking (startRegs 0 [] 0 15 7 17)).regs[0].toNat * (checking (startRegs 0 [] 0 15 7 17)).regs[7].toNat ≤ 255 ∧
    (checking (startRegs 0 [] 0 16 7 16)).params.arithOverflow = .fault ∧
    255 < (checking (startRegs 0 [] 0 16 7 16)).regs[0].toNat * (checking (startRegs 0 [] 0 16 7 16)).regs[7].toNat := by decide
theorem witness_DivWritesTheQuotient : (0 : Byte).toNat < 8 ∧ (7 : Byte).toNat < 8 ∧ (startRegs 0 [] 0 7 7 1).regs[7] ≠ 0 ∧
    (startRegs 0 [] 0 7 7 0).regs[7] = 0 := by decide
theorem witness_ModWritesTheRemainder : (0 : Byte).toNat < 8 ∧ (7 : Byte).toNat < 8 ∧ (startRegs 0 [] 0 7 7 1).regs[7] ≠ 0 ∧
    (startRegs 0 [] 0 7 7 0).regs[7] = 0 := by decide
/-- The register bytes 0 and 7, the hypotheses of the CMP, LDI, PRN, JEQ and JNE statements, with E set and clear. -/
theorem witness_CmpSetsExactlyOneFlag : (0 : Byte).toNat < 8 ∧ (7 : Byte).toNat < 8 := by decide
theorem witness_LdiLoadsTheImmediate : (7 : Byte).toNat < 8 := by decide
theorem witness_PrnEmitsTheRegister : (7 : Byte).toNat < 8 := by decide
theorem witness_JeqBranchesWhenEqual : (7 : Byte).toNat < 8 ∧ State.reset.flags.e = false ∧
    { State.reset with flags := { e := true, l := false, g := false } }.flags.e = true := by decide
theorem witness_JneBranchesWhenNotEqual : (7 : Byte).toNat < 8 ∧ State.reset.flags.e = false ∧
    { State.reset with flags := { e := true, l := false, g := false } }.flags.e = true := by decide
/-- PUSH: sp = 256 and sp = 1 store, sp = 0 overflows, under the default floor. -/
theorem witness_PushStoresTheRegister : (7 : Byte).toNat < 8 ∧ State.reset.sp.toNat ≤ 256 ∧
    State.reset.params.stackFloor < State.reset.sp.toNat ∧ Params.default.stackFloor < (1 : Word9).toNat ∧
    (0 : Word9).toNat ≤ Params.default.stackFloor := by decide
/-- POP: sp = 255 and sp = 0 load, sp = 256 underflows. -/
theorem witness_PopLoadsTheTopOfTheStack : (7 : Byte).toNat < 8 ∧ Params.default.spEmpty.toNat ≤ 256 ∧
    (255 : Word9).toNat < Params.default.spEmpty.toNat ∧ (0 : Word9).toNat < Params.default.spEmpty.toNat ∧
    Params.default.spEmpty.toNat ≤ State.reset.sp.toNat := by decide

theorem witness_OnlyTheDestinationRegisterChanges :
    (∃ t, exec (.ldi 0 8) State.reset = .next t) ∧ ∀ d : Byte, destination (.ldi 0 8) = some d → d.toNat ≠ 7 := by
  refine ⟨⟨_, rfl⟩, fun d h => ?_⟩
  obtain rfl : (0 : Byte) = d := Option.some.inj h
  decide
theorem witness_OnlyCmpChangesTheFlags :
    (∃ t, exec (.add 0 1) State.reset = .next t) ∧ ∀ a b : Byte, Instr.add 0 1 ≠ .cmp a b :=
  ⟨⟨_, rfl⟩, fun _ _ h => nomatch h⟩
theorem witness_OnlyPushAndPopChangeSp : (∃ t, exec .hlt State.reset = .next t) ∧ (∀ a : Byte, Instr.hlt ≠ .push a) ∧
    ∀ a : Byte, Instr.hlt ≠ .pop a := ⟨⟨_, rfl⟩, fun _ h => (nomatch h), fun _ h => (nomatch h)⟩
theorem witness_OnlyPushChangesMemory :
    (∃ t, exec (.push 0) State.reset = .next t) ∧ ∀ a : Byte, Instr.push 0 = .push a → 254 ≠ pushAddress State.reset :=
  ⟨⟨_, rfl⟩, fun _ _ => by decide⟩
theorem witness_OnlyPrnAndHltEmit : (∃ t, exec (.jmp 0) State.reset = .next t) ∧ (∀ a : Byte, Instr.jmp 0 ≠ .prn a) ∧
    Instr.jmp 0 ≠ .hlt := ⟨⟨_, rfl⟩, fun _ h => (nomatch h), by decide⟩
theorem witness_StepKeepsTheParameters : ∃ t, step (start 0 [0x01]) = .next t := ⟨_, rfl⟩
/-- A fault, a running completion and a clean halt, the first two with the instruction's last byte in cell 255. -/
theorem witness_PcAfterEachInstruction :
    (253 + (Instr.div 0 1).opcode.width ≤ 256 ∧ ((nextOf (exec (.div 0 1) (start 253 []))).map
      (fun t => decide (t.status = .halted ∧ t.haltReason ≠ .clean))) = some true) ∧
    (254 + (Instr.prn 7).opcode.width ≤ 256 ∧ ((nextOf (exec (.prn 7) (start 254 []))).map (·.status)) = some .running) ∧
    ((nextOf (exec .hlt (start 255 []))).map (·.haltReason)) = some .clean := by decide
/-- The three outcomes of a RUNNING cycle. -/
theorem witness_OnlyHltAndFaultsHalt : (start 0 [0x54, 9]).status = .running ∧ (start 0 [0x54, 9]).haltReason = .none ∧
    (after (start 0 [0x54, 9])).map (·.status) = some .running ∧ (after (start 0 [0x01])).map (·.haltReason) = some .clean ∧
    (after (start 0 [])).map (·.status) = some .halted := by decide
theorem witness_FaultsArePrecise : State.reset.status = .running ∧ State.reset.haltReason = .none ∧
    (after State.reset).map (·.haltReason) = some (.fault { kind := .invalidOpcode, p := some 0, opcode := some 0 }) := by decide
/-- One cycle for each kind that a clause of the statement names. -/
theorem witness_FaultKindsByOpcode :
    (after (start 0 [0xA3, 0, 1])).map (·.haltReason) =
      some (.fault { kind := .divisionByZero, p := some 0, opcode := some 0xA3, a := some 0, b := some 1 }) ∧
    (after { start 0 [0x45, 0] with sp := 0 }).map (·.haltReason) =
      some (.fault { kind := .stackOverflow, p := some 0, opcode := some 0x45, a := some 0 }) ∧
    (after (start 0 [0x46, 0])).map (·.haltReason) =
      some (.fault { kind := .stackUnderflow, p := some 0, opcode := some 0x46, a := some 0 }) ∧
    (after (checking (startRegs 0 [0xA0, 0, 1] 0 255 1 1))).map (·.haltReason) =
      some (.fault { kind := .arithmeticOverflow, p := some 0, opcode := some 0xA0, a := some 0, b := some 1 }) ∧
    (after (start 0 [0x47, 8])).map (·.haltReason) =
      some (.fault { kind := .invalidRegister, p := some 0, opcode := some 0x47, a := some 8 }) ∧
    (after (start 256 [])).map (·.haltReason) =
      some (.fault { kind := .addressOutOfRange, p := some 256, addr := some 256 }) := by decide

/-- A legal state at the edges of its ranges: pc = 256, sp = 0, one listed cell, one event. -/
def edge : State := { State.reset with pc := 256, sp := 0, mem := [(255, 9)], output := [.out 9] }

theorem witness_edge_legal : edge.Inv where
  params_legal := by decide
  mem_wf := by decide
  pc_range := by decide
  sp_range := by decide
  flags_range := by decide
  reason_status := by decide
  report_pc := fun _ h => nomatch h
  output_form := fun _ => ⟨[9], rfl⟩
  trace_quiet := fun _ => rfl

/-- A legal state whose stack holds one byte, between a raised floor and a lowered SP_EMPTY. -/
def floored : State :=
  { start 0 [0x45, 7] with sp := 21, params := { Params.default with stackFloor := 20, spEmpty := 22 } }

theorem witness_floored_legal : floored.Inv where
  params_legal := by decide
  mem_wf := by decide
  pc_range := by decide
  sp_range := by decide
  flags_range := by decide
  reason_status := by decide
  report_pc := fun _ h => nomatch h
  output_form := fun _ => ⟨[], rfl⟩
  trace_quiet := fun _ => rfl

/-- PUSH one above the floor, POP one below SP_EMPTY (both at sp = 21), POP at sp = 0, and a step that stores at 20 between the bytes 19
and 22 that the last clause keeps. -/
theorem witness_StackStaysBetweenFloorAndSpEmpty : floored.Inv ∧ edge.Inv ∧ (7 : Byte).toNat < 8 ∧
    floored.params.stackFloor < floored.sp.toNat ∧ floored.sp.toNat < floored.params.spEmpty.toNat ∧
    edge.sp.toNat < edge.params.spEmpty.toNat ∧ (∃ t, step floored = .next t ∧ t.sp.toNat = 20) ∧
    19 < floored.params.stackFloor ∧ floored.params.spEmpty.toNat ≤ 22 :=
  ⟨witness_floored_legal, witness_edge_legal, by decide, by decide, by decide, by decide, ⟨_, rfl, by decide⟩, by decide, by decide⟩

theorem witness_StepKeepsTheLegalStates : edge.Inv ∧ ∃ t, step edge = .next t := ⟨witness_edge_legal, _, rfl⟩
theorem witness_LoadKeepsTheLegalStates : edge.Inv := witness_edge_legal
theorem witness_HandlersNeverLeaveTheRam : edge.Inv ∧ edge.haltReason = .none ∧
    ∃ t r, exec (.push 0) edge = .next t ∧ t.haltReason = .fault r := ⟨witness_edge_legal, rfl, _, _, rfl, rfl⟩
theorem witness_LoadResetsEverything : ([0x01] : List Byte).length ≤ 256 ∧ (List.replicate 256 (0x01 : Byte)).length ≤ 256 ∧
    State.reset.params = Params.default := by
  refine ⟨by decide, ?_, rfl⟩
  rw [List.length_replicate]
theorem witness_LoadOfTooManyBytesHalts : 256 < (List.replicate 257 (0x01 : Byte)).length := by
  rw [List.length_replicate]
  exact Nat.lt_succ_self 256
/-- One and eight digits, nine characters, and a digit 2. -/
theorem witness_ListingLineIsABinaryLiteral : 1 ≤ [true].length ∧ (List.replicate 8 true).length ≤ 8 ∧
    8 < (stripLine "000000001".toList).length ∧ (∃ c ∈ stripLine "12".toList, c ≠ '0' ∧ c ≠ '1') :=
  ⟨by decide, by decide, by decide, '2', by decide, by decide⟩
theorem witness_DecodedBytesAreTheEncoding : decode [0x45, 7, 1] = .ok (.push 7, [1]) := by decide
theorem witness_DispatchTableIsTheOpcodeMap : (0xFF : Byte) ∉
    ([0x01, 0x82, 0x47, 0x45, 0x46, 0x54, 0x55, 0x56, 0xA7, 0xA0, 0xA1, 0xA2, 0xA3, 0xA4] : List Byte) := by decide
theorem witness_FlagsLAndGAreNeverRead :
    sameButLG State.reset { State.reset with flags := { e := false, l := true, g := false } } ∧
    (∃ t, step State.reset = .next t) ∧
    ∃ t, step { State.reset with flags := { e := false, l := true, g := false } } = .next t := ⟨rfl, ⟨_, rfl⟩, ⟨_, rfl⟩⟩
theorem witness_TraceHasNoEffect :
    sameButTrace State.reset { State.reset with params := { Params.default with traceEnable := true } } ∧
    (∃ t, step State.reset = .next t) ∧
    ∃ t, step { State.reset with params := { Params.default with traceEnable := true } } = .next t := ⟨rfl, ⟨_, rfl⟩, ⟨_, rfl⟩⟩
/-- sp = 256 (an empty stack) and sp = 1 (the last free cell). -/
theorem witness_PushThenPopRestores : (7 : Byte).toNat < 8 ∧ State.reset.params.stackFloor < State.reset.sp.toNat ∧
    State.reset.sp.toNat ≤ State.reset.params.spEmpty.toNat ∧ State.reset.params.spEmpty.toNat ≤ 256 ∧
    Params.default.stackFloor < (1 : Word9).toNat ∧ (1 : Word9).toNat ≤ Params.default.spEmpty.toNat := by decide
theorem witness_PushedOpcodeIsFetchedNext : (nextOf (exec (.push 0) (startRegs 253 [] 0 1 0 1))).map
      (fun t => decide (t.status = .running ∧ t.pc.toNat = pushAddress (startRegs 253 [] 0 1 0 1))) = some true ∧
    (startRegs 253 [] 0 1 0 1).regs[0] = 0x01 ∧ (startRegs 253 [] 0 1 0 1).sp.toNat ≤ 256 ∧
    (startRegs 253 [] 0 1 0 1).status = .running ∧ (startRegs 253 [] 0 1 0 1).haltReason = .none := by decide

end Sys2Proof.Tests
end

section
/-! PROOFS. What every instruction and every cycle leave of the parameters, the trace and the memory. -/

namespace Sys2Proof.Machine

/-- What running `i` leaves: the parameters, the trace, and the memory but for the byte that a PUSH above the floor stores (R140). -/
def ExecFrame (i : Instr) (s t : State) : Prop :=
  t.params = s.params ∧ t.trace = s.trace ∧
    (t.mem = s.mem ∨
      ∃ a v, i = .push a ∧ s.params.stackFloor < s.sp.toNat ∧ t.mem = s.mem.write (pushAddress s) v)

theorem Completes.frame {i : Instr} {s t : State} (h : Completes i s t) : ExecFrame i s t := by
  cases i with
  | hlt | jmp _ => obtain rfl := h; exact ⟨rfl, rfl, .inl rfl⟩
  | ldi _ _ | prn _ => obtain ⟨_, _, rfl⟩ := h; exact ⟨rfl, rfl, .inl rfl⟩
  | push a => obtain ⟨_, _, hfloor, _, rfl⟩ := h; exact ⟨rfl, rfl, .inr ⟨a, _, rfl, hfloor, rfl⟩⟩
  | pop _ => obtain ⟨_, _, _, _, rfl⟩ := h; exact ⟨rfl, rfl, .inl rfl⟩
  | jeq _ | jne _ => obtain ⟨_, _, rfl⟩ := h; split <;> exact ⟨rfl, rfl, .inl rfl⟩
  | cmp _ _ => obtain ⟨_, _, _, _, rfl⟩ := h; exact ⟨rfl, rfl, .inl rfl⟩
  | add _ _ | sub _ _ | mul _ _ | div _ _ | mod _ _ =>
    obtain ⟨_, _, _, _, _, rfl, _⟩ := h; exact ⟨rfl, rfl, .inl rfl⟩

/-- The frame of `exec`: a fault changes none of the three either (R166). -/
theorem exec_frame {i : Instr} {s t : State} (h : exec i s = .next t) : ExecFrame i s t := by
  rcases exec_cases h with hc | ⟨r, rfl, -⟩
  · exact hc.frame
  · exact ⟨rfl, rfl, .inl rfl⟩

/-- The frame of `step`: in HALTED everything stays (R90), else the trace has the cycle's sample (R178) and only a PUSH above the
floor stores. -/
theorem step_frame {s t : State} (h : step s = .next t) :
    t.params = s.params ∧
    t.trace = (if s.status = .running then (sampleTrace s).trace else s.trace) ∧
    (t.mem = s.mem ∨ ∃ v, s.params.stackFloor < s.sp.toNat ∧ t.mem = s.mem.write (pushAddress s) v) := by
  cases hr : s.status with
  | halted =>
    rw [step_of_halted hr] at h
    injection h with h
    subst h
    exact ⟨rfl, rfl, .inl rfl⟩
  | running =>
    rcases step_cases hr h with ⟨i, -, -, hi⟩ | ⟨r, rfl, -⟩
    · obtain ⟨hparams, htrace, hmem⟩ := exec_frame hi
      exact ⟨hparams, htrace, hmem.imp_right fun ⟨_, v, _, hfloor, hwrite⟩ => ⟨v, hfloor, hwrite⟩⟩
    · exact ⟨rfl, rfl, .inl rfl⟩

end Sys2Proof.Machine
end

section
/-! PROOFS. When PUSH and POP complete, and where the legal states put the top of the stack. -/

namespace Sys2Proof.Machine

/-- R140: a PUSH above the floor whose store address is a cell completes. -/
theorem exec_push_of_floor_lt {s : State} {a : Byte} (ha : a.toNat < 8) (hfloor : s.params.stackFloor < s.sp.toNat)
    (hcell : pushAddress s < 256) :
    exec (.push a) s = .next (advance 2
      { s with sp := pushPointer s, mem := s.mem.write (pushAddress s) (readReg s ⟨a.toNat, ha⟩) }) := by
  refine congrArg Host.Outcome.next ((withReg_of_lt _ _ _ _ ha).trans ?_)
  rcases pushReg_cases a ⟨a.toNat, ha⟩ s with ⟨-, -, hstore⟩ | ⟨hle, -⟩ | ⟨-, hge, -⟩
  · exact hstore
  · omega
  · omega

/-- R141: a POP of a non-empty stack whose load address is a cell completes. -/
theorem exec_pop_of_lt_spEmpty {s : State} {a : Byte} (ha : a.toNat < 8) (hempty : s.sp.toNat < s.params.spEmpty.toNat)
    (hcell : s.sp.toNat < 256) :
    exec (.pop a) s = .next (advance 2
      { writeReg s ⟨a.toNat, ha⟩ (s.mem.read s.sp.toNat) with sp := s.sp + 1 }) := by
  refine congrArg Host.Outcome.next ((withReg_of_lt _ _ _ _ ha).trans ?_)
  rcases popReg_cases a ⟨a.toNat, ha⟩ s with ⟨-, -, hload⟩ | ⟨hle, -⟩ | ⟨-, hge, -⟩
  · exact hload
  · omega
  · omega

/-- R141: below 256 the post-increment of `sp` does not wrap. -/
theorem toNat_sp_add_one {s : State} (h : s.sp.toNat < 256) : (s.sp + 1).toNat = s.sp.toNat + 1 := by
  have h1 : (1 : Word9).toNat = 1 := rfl
  rw [BitVec.toNat_add, h1]
  omega

theorem State.Inv.spEmpty_le {s : State} (hs : s.Inv) : s.params.spEmpty.toNat ≤ 256 := by
  have hlegal := hs.params_legal
  rw [Params.legal, Bool.and_eq_true, decide_eq_true_eq] at hlegal
  exact hlegal.1

/-- R25, R140: in a legal state above the floor the store address lies in the stack's range. -/
theorem State.Inv.pushAddress_bounds {s : State} (hs : s.Inv) (hfloor : s.params.stackFloor < s.sp.toNat) :
    pushAddress s + 1 = s.sp.toNat ∧ s.params.stackFloor ≤ pushAddress s ∧
      pushAddress s < s.params.spEmpty.toNat ∧ pushAddress s < 256 := by
  have hadd := pushAddress_add_one s (by omega)
  have hsp := hs.sp_range
  have hempty := hs.spEmpty_le
  omega

theorem step_keeps_memory_outside_stack {s t : State} (hs : s.Inv) (h : step s = .next t) {x : Nat}
    (hx : x < s.params.stackFloor ∨ s.params.spEmpty.toNat ≤ x) : t.mem.read x = s.mem.read x := by
  obtain ⟨-, -, hmem | ⟨v, hfloor, hmem⟩⟩ := step_frame h
  · rw [hmem]
  · obtain ⟨-, hlow, hhigh, -⟩ := hs.pushAddress_bounds hfloor
    rw [hmem, Memory.read_write_other _ _ _ _ (by omega)]

end Sys2Proof.Machine
end

section
/-! PROOFS. The obligations of 00_scope.md. -/

namespace Sys2Proof.Machine

/-- Settles O24: the legal states keep `sp` at most SP_EMPTY, so both stack accesses hit a cell, and only PUSH stores. -/
theorem stackStaysBetweenFloorAndSpEmpty : Obligations.StackStaysBetweenFloorAndSpEmpty := by
  refine ⟨fun s a hs ha => ⟨fun hfloor => ?push, fun hempty => ?pop⟩, fun s t hs h x hx => ?frame⟩
  case push =>
    obtain ⟨hadd, hlow, hhigh, hcell⟩ := hs.pushAddress_bounds hfloor
    exact ⟨_, exec_push_of_floor_lt ha hfloor hcell, rfl, rfl, hadd, rfl, hlow, hhigh, hcell⟩
  case pop =>
    have hcell : s.sp.toNat < 256 := hempty.trans_le hs.spEmpty_le
    have hsp := toNat_sp_add_one hcell
    exact ⟨_, exec_pop_of_lt_spEmpty ha hempty hcell, rfl, rfl, hsp, hsp.trans_le hempty, hcell⟩
  case frame => exact step_keeps_memory_outside_stack hs h hx

/-- Settles O30, from the frame of a cycle. -/
theorem stepKeepsTheParameters : Obligations.StepKeepsTheParameters := by
  intro s t h
  obtain ⟨hparams, htrace, -⟩ := step_frame h
  refine ⟨hparams, htrace.trans ?_⟩
  rw [sampleTrace_trace, ite_and]

end Sys2Proof.Machine
end

section
/-! PROOFS. What the instructions that complete change of the registers, the flags, `sp`, the control state, the output and `pc`. -/

namespace Sys2Proof.Machine

/-- What a completing instruction does to the status, the halt report and the output: HLT halts cleanly, PRN emits a value, and
nothing else touches them (R29, R30, R32). -/
def ControlEffect (i : Instr) (s t : State) : Prop :=
  (i = .hlt ∧ t.status = .halted ∧ t.haltReason = .clean ∧ t.output = s.output ++ [.haltNotice]) ∨
  (t.status = s.status ∧ t.haltReason = s.haltReason ∧
    (t.output = s.output ∨ ∃ a v, i = .prn a ∧ t.output = s.output ++ [.out v]))

/-- What a completing instruction can do to the fields that only some instructions change. -/
structure Effect (i : Instr) (s t : State) : Prop where
  /-- R22 -/
  regs : t.regs = s.regs ∨ ∃ a r v, destination i = some a ∧ regIndex a = some r ∧ t.regs = s.regs.set r v
  /-- R26 -/
  flags : t.flags = s.flags ∨ ∃ a b u v, i = .cmp a b ∧ t.flags = compareFlags u v
  /-- R25, R140, R141 -/
  sp : t.sp = s.sp ∨ (∃ a, i = .push a ∧ s.params.stackFloor < s.sp.toNat ∧ t.sp = pushPointer s) ∨
    (∃ a, i = .pop a ∧ s.sp.toNat < s.params.spEmpty.toNat ∧ s.sp.toNat < 256 ∧ t.sp = s.sp + 1)
  control : ControlEffect i s t

theorem Completes.effect {i : Instr} {s t : State} (h : Completes i s t) : Effect i s t := by
  have unchanged : ControlEffect i s s := .inr ⟨rfl, rfl, .inl rfl⟩
  cases i with
  | hlt => obtain rfl := h; exact ⟨.inl rfl, .inl rfl, .inl rfl, .inl ⟨rfl, rfl, rfl, rfl⟩⟩
  | prn a => obtain ⟨_, _, rfl⟩ := h; exact ⟨.inl rfl, .inl rfl, .inl rfl, .inr ⟨rfl, rfl, .inr ⟨a, _, rfl, rfl⟩⟩⟩
  | ldi a _ => obtain ⟨r, ha, rfl⟩ := h; exact ⟨.inr ⟨a, r, _, rfl, ha, rfl⟩, .inl rfl, .inl rfl, unchanged⟩
  | push a =>
    obtain ⟨_, _, hfloor, _, rfl⟩ := h
    exact ⟨.inl rfl, .inl rfl, .inr (.inl ⟨a, rfl, hfloor, rfl⟩), unchanged⟩
  | pop a =>
    obtain ⟨r, ha, hempty, hcell, rfl⟩ := h
    exact ⟨.inr ⟨a, r, _, rfl, ha, rfl⟩, .inl rfl, .inr (.inr ⟨a, rfl, hempty, hcell, rfl⟩), unchanged⟩
  | jmp _ => obtain rfl := h; exact ⟨.inl rfl, .inl rfl, .inl rfl, unchanged⟩
  | jeq _ | jne _ => obtain ⟨_, _, rfl⟩ := h; split <;> exact ⟨.inl rfl, .inl rfl, .inl rfl, unchanged⟩
  | cmp a b =>
    obtain ⟨_, _, _, _, rfl⟩ := h
    exact ⟨.inl rfl, .inr ⟨a, b, _, _, rfl, rfl⟩, .inl rfl, unchanged⟩
  | add a _ | sub a _ | mul a _ | div a _ | mod a _ =>
    obtain ⟨r, _, ha, _, _, rfl, _⟩ := h
    exact ⟨.inr ⟨a, r, _, rfl, ha, rfl⟩, .inl rfl, .inl rfl, unchanged⟩

/-- R96 (a): inside the RAM advancing `pc` does not wrap. -/
theorem toNat_advance_pc {w : Nat} {s : State} (h : s.pc.toNat + w ≤ 256) : (advance w s).pc.toNat = s.pc.toNat + w := by
  rw [advance_pc, BitVec.toNat_add, BitVec.toNat_ofNat]
  omega

/-- R96 (b): a jump goes to the target byte's own value. -/
theorem toNat_jump_pc (target : Byte) (s : State) : (jump target s).pc.toNat = target.toNat :=
  BitVec.toNat_setWidth_of_le (by decide)

theorem regValue_of_regIndex {a : Byte} {r : Fin 8} (s : State) (h : regIndex a = some r) : regValue s a = readReg s r := by
  simp [regValue, val_of_regIndex h, readReg_eq]

/-- R24: where a completing instruction that fits in the RAM leaves `pc`. -/
theorem Completes.toNat_pc {i : Instr} {s t : State} (h : Completes i s t) (hfit : s.pc.toNat + i.opcode.width ≤ 256) :
    t.pc.toNat = pcAfter i s := by
  cases i with
  | hlt => obtain rfl := h; rfl
  | jmp a => obtain rfl := h; exact toNat_jump_pc a s
  | ldi _ _ | prn _ => obtain ⟨_, _, rfl⟩ := h; exact toNat_advance_pc hfit
  | push _ | pop _ => obtain ⟨_, _, _, _, rfl⟩ := h; exact toNat_advance_pc hfit
  | cmp _ _ => obtain ⟨_, _, _, _, rfl⟩ := h; exact toNat_advance_pc hfit
  | add _ _ | sub _ _ | mul _ _ | div _ _ | mod _ _ =>
    obtain ⟨_, _, _, _, _, rfl, _⟩ := h; exact toNat_advance_pc hfit
  | jeq _ =>
    obtain ⟨_, ha, rfl⟩ := h
    rw [pcAfter, regValue_of_regIndex s ha]
    split
    · exact toNat_jump_pc _ s
    · exact toNat_advance_pc hfit
  | jne _ =>
    obtain ⟨_, ha, rfl⟩ := h
    rw [pcAfter, regValue_of_regIndex s ha]
    split
    · exact toNat_advance_pc hfit
    · exact toNat_jump_pc _ s

/-- R23: `pc` stays in 0..256. -/
theorem pcAfter_le {i : Instr} {s : State} (hfit : s.pc.toNat + i.opcode.width ≤ 256) : pcAfter i s ≤ 256 := by
  have hbyte (b : Byte) : b.toNat ≤ 256 := b.isLt.le
  cases i with
  | hlt => exact (Nat.le_add_right _ _).trans hfit
  | jmp a => exact hbyte a
  | jeq _ =>
    rw [pcAfter]
    split
    · exact hbyte _
    · exact hfit
  | jne _ =>
    rw [pcAfter]
    split
    · exact hfit
    · exact hbyte _
  | _ => exact hfit

end Sys2Proof.Machine
end

section
/-! PROOFS. The legal states are kept: by the trace sample, by a fault and by every instruction that completes. -/

namespace Sys2Proof.Machine

/-- A RUNNING legal state has halted for no reason yet, so its output is values of PRN alone (R30, R32). -/
theorem State.Inv.output_of_running {s : State} (hs : s.Inv) (hrun : s.status = .running) :
    ∃ vs : List Byte, s.output = vs.map Event.out := by
  have hnone := hs.reason_status.mpr hrun
  have hload : ¬ s.loadFailed := fun ⟨r, hr, _⟩ => by simp [hnone] at hr
  simpa [hnone] using hs.output_form hload

/-- R178: the trace port's sample concerns the trace only, and only when the trace is on. -/
theorem State.Inv.sampleTrace {s : State} (hs : s.Inv) : (sampleTrace s).Inv :=
  { hs with
    trace_quiet := fun hoff => by
      have hoff : s.params.traceEnable = false := hoff
      simp [hoff, hs.trace_quiet] }

/-- R166: a fault of a RUNNING core whose report names `pc` leads to a legal state. -/
theorem State.Inv.faulted {s : State} {r : FaultReport} (hs : s.Inv) (hrun : s.status = .running) (hp : r.p = some s.pc) :
    (faulted s r).Inv :=
  { hs with
    reason_status := by simp
    report_pc := by
      intro r' hr' _
      obtain rfl : r = r' := HaltReason.fault.inj hr'
      exact hp
    output_form := fun _ => by simpa using hs.output_of_running hrun }

/-- What a legal state's halt report and output owe to its status, after an instruction of a RUNNING core completed. -/
theorem ControlEffect.inv {i : Instr} {s t : State} (hc : ControlEffect i s t) (hs : s.Inv) (hrun : s.status = .running) :
    (t.haltReason = .none ↔ t.status = .running) ∧ (∀ r, t.haltReason ≠ .fault r) ∧
      ∃ vs : List Byte, t.output = vs.map Event.out ++ (if t.haltReason = .clean then [Event.haltNotice] else []) := by
  have hnone := hs.reason_status.mpr hrun
  obtain ⟨vs, hvs⟩ := hs.output_of_running hrun
  rcases hc with ⟨-, hstatus, hreason, hout⟩ | ⟨hstatus, hreason, hout | ⟨-, v, -, hout⟩⟩
  · exact ⟨by simp [hstatus, hreason], by simp [hreason], vs, by simp [hreason, hout, hvs]⟩
  · exact ⟨by simp [hstatus, hreason, hrun, hnone], by simp [hreason, hnone], vs, by simp [hreason, hnone, hout, hvs]⟩
  · exact ⟨by simp [hstatus, hreason, hrun, hnone], by simp [hreason, hnone], vs ++ [v],
      by simp [hreason, hnone, hout, hvs]⟩

/-- Every instruction that fits in the RAM and completes keeps the legal states legal. -/
theorem Completes.inv {i : Instr} {s t : State} (h : Completes i s t) (hs : s.Inv) (hrun : s.status = .running)
    (hfit : s.pc.toNat + i.opcode.width ≤ 256) : t.Inv := by
  obtain ⟨-, hflags, hsp, hcontrol⟩ := h.effect
  obtain ⟨hparams, htrace, hmem⟩ := h.frame
  obtain ⟨hstatus, hreason, hout⟩ := hcontrol.inv hs hrun
  refine
    { params_legal := hparams ▸ hs.params_legal
      mem_wf := ?mem
      pc_range := (h.toNat_pc hfit).trans_le (pcAfter_le hfit)
      sp_range := ?sp
      flags_range := ?flags
      reason_status := hstatus
      report_pc := fun r hr => absurd hr (hreason r)
      output_form := fun _ => hout
      trace_quiet := by rw [hparams, htrace]; exact hs.trace_quiet }
  case mem =>
    rcases hmem with hmem | ⟨_, v, _, hfloor, hmem⟩
    · exact hmem ▸ hs.mem_wf
    · obtain ⟨-, -, -, hcell⟩ := hs.pushAddress_bounds hfloor
      exact hmem ▸ Memory.write_wf _ _ v hs.mem_wf hcell
  case sp =>
    have hrange := hs.sp_range
    rw [hparams]
    rcases hsp with hsp | ⟨_, _, hfloor, hsp⟩ | ⟨_, _, hempty, hcell, hsp⟩ <;> rw [hsp]
    · exact hrange
    · obtain ⟨-, -, hhigh, -⟩ := hs.pushAddress_bounds hfloor
      exact hhigh.le
    · exact (toNat_sp_add_one hcell).trans_le hempty
  case flags =>
    rcases hflags with hflags | ⟨_, _, u, v, _, hflags⟩ <;> rw [hflags]
    · exact hs.flags_range
    · exact compareFlags_atMostOne u v

/-- R97: a cycle of a legal RUNNING core leads to a legal state. -/
theorem State.Inv.step_of_running {s t : State} (hs : s.Inv) (hrun : s.status = .running) (h : step s = .next t) : t.Inv := by
  have hsample := hs.sampleTrace
  rcases step_cases hrun h with ⟨i, hfit, -, hi⟩ | ⟨r, rfl, hp, -⟩
  · rcases exec_cases hi with hc | ⟨r, rfl, hp, -⟩
    · exact hc.inv hsample hrun hfit
    · exact hsample.faulted hrun hp
  · exact hsample.faulted hrun hp

end Sys2Proof.Machine
end

section
/-! PROOFS. The flags L and G are read by nothing: erasing them before a cycle changes nothing else after it. -/

namespace Sys2Proof.Machine

/-- The state with L and G cleared: two states are `sameButLG` when these agree. -/
def eraseLG (s : State) : State := { s with flags := { s.flags with l := false, g := false } }

theorem sameButLG_iff (s t : State) : sameButLG s t ↔ eraseLG s = eraseLG t := Iff.rfl

@[simp] theorem eraseLG_sp (s : State) : (eraseLG s).sp = s.sp := rfl
@[simp] theorem eraseLG_mem (s : State) : (eraseLG s).mem = s.mem := rfl
@[simp] theorem eraseLG_params (s : State) : (eraseLG s).params = s.params := rfl
@[simp] theorem readReg_eraseLG (s : State) (r : Fin 8) : readReg (eraseLG s) r = readReg s r := rfl
@[simp] theorem pushAddress_eraseLG (s : State) : pushAddress (eraseLG s) = pushAddress s := rfl

/-- An outcome up to L and G of its next state. -/
def outcomeUpToLG : Host.Outcome State Fault Refusal → Host.Outcome State Fault Refusal
  | .next t => .next (eraseLG t)
  | .fault f => .fault f
  | .refused r => .refused r

/-- Handlers that agree up to L and G on each register agree behind the validation of R94, whose report has no flag in it. -/
theorem eraseLG_withReg (o : Opcode) (a : Byte) (b : Option Byte) (s : State) {k k' : Fin 8 → State}
    (hk : ∀ r, eraseLG (k r) = eraseLG (k' r)) :
    eraseLG (withReg o a b (eraseLG s) k) = eraseLG (withReg o a b s k') := by
  unfold withReg
  cases regIndex a with
  | none => rfl
  | some r => exact hk r

theorem eraseLG_pushReg (a : Byte) (r : Fin 8) (s : State) :
    eraseLG (pushReg a r (eraseLG s)) = eraseLG (pushReg a r s) := by
  simp only [pushReg, memWrite_eq, eraseLG_sp, eraseLG_params, pushAddress_eraseLG]
  split
  · rfl
  · by_cases hcell : pushAddress s < 256 <;> simp only [hcell, ↓reduceIte] <;> rfl

theorem eraseLG_popReg (a : Byte) (r : Fin 8) (s : State) :
    eraseLG (popReg a r (eraseLG s)) = eraseLG (popReg a r s) := by
  simp only [popReg, popAddress, memRead_eq, eraseLG_sp, eraseLG_params, eraseLG_mem]
  split
  · rfl
  · split <;> rfl

theorem eraseLG_branchReg (o : Opcode) (taken : Bool) (r : Fin 8) (s : State) :
    eraseLG (branchReg o taken r (eraseLG s)) = eraseLG (branchReg o taken r s) := by
  cases taken <;> rfl

theorem eraseLG_aluStep (o : Opcode) (op : Byte → Byte → AluOut) (a b : Byte) (s : State) :
    eraseLG (aluStep o op a b (eraseLG s)) = eraseLG (aluStep o op a b s) := by
  refine eraseLG_withReg o a (some b) s fun ra => ?_
  cases regIndex b with
  | none => rfl
  | some rb =>
    simp only [readReg_eraseLG]
    cases op (readReg s ra) (readReg s rb) <;> rfl

/-- R26: no instruction's meaning reads L or G. -/
theorem exec_eraseLG (i : Instr) (s : State) : outcomeUpToLG (exec i (eraseLG s)) = outcomeUpToLG (exec i s) := by
  have upToLG {t u : State} (h : eraseLG t = eraseLG u) : outcomeUpToLG (.next t) = outcomeUpToLG (.next u) :=
    congrArg Host.Outcome.next h
  cases i with
  | hlt | jmp _ => rfl
  | ldi _ _ | prn _ => exact upToLG (eraseLG_withReg _ _ _ s fun _ => rfl)
  | push a => exact upToLG (eraseLG_withReg _ _ _ s fun r => eraseLG_pushReg a r s)
  | pop a => exact upToLG (eraseLG_withReg _ _ _ s fun r => eraseLG_popReg a r s)
  | jeq _ | jne _ => exact upToLG (eraseLG_withReg _ _ _ s fun r => eraseLG_branchReg _ _ r s)
  | cmp a b | add a b | sub a b | mul a b | div a b | mod a b => exact upToLG (eraseLG_aluStep _ _ a b s)

/-- R26: a cycle reads neither L nor G, in its fetch, its trace sample or its instruction. -/
theorem step_eraseLG (s : State) : outcomeUpToLG (step (eraseLG s)) = outcomeUpToLG (step s) := by
  have hfetch : fetch (eraseLG s) = fetch s := rfl
  cases hr : s.status with
  | halted => rw [step_of_halted hr, step_of_halted (s := eraseLG s) hr]; rfl
  | running =>
    cases hf : fetch s with
    | error r => rw [step_of_error hr hf, step_of_error (s := eraseLG s) hr (hfetch.trans hf)]; rfl
    | ok i =>
      rw [step_of_ok hr hf, step_of_ok (s := eraseLG s) hr (hfetch.trans hf)]
      exact exec_eraseLG i (sampleTrace s)

end Sys2Proof.Machine
end

section
/-! PROOFS. Running under a limit (R98): every step has a next state, and HALTED stays where it is for any number of steps. -/

namespace Sys2Proof.Machine

theorem step_next (s : State) : ∃ t, step s = .next t := by
  cases hr : s.status with
  | halted => exact ⟨s, step_of_halted hr⟩
  | running =>
    cases hf : fetch s with
    | error r => exact ⟨_, step_of_error hr hf⟩
    | ok i => exact step_of_ok hr hf ▸ exec_next i (sampleTrace s)

theorem core_run_succ_of_next {M : Host.Core} {s t : M.State} (h : M.step s = .next t) (n : Nat) :
    M.run (n + 1) s = M.run n t := by
  rw [Host.Core.run, h]

/-- R90: a run of a halted machine gives the machine itself. -/
theorem run_of_halted {s : State} (hr : s.status = .halted) (n : Nat) : run n s = .next s := by
  cases n with
  | zero => rfl
  | succ n => simp only [run, hr]

theorem run_succ_of_next {s t : State} (h : step s = .next t) (n : Nat) : run (n + 1) s = run n t := by
  cases hr : s.status with
  | halted =>
    rw [step_of_halted hr] at h
    injection h with h
    rw [← h, run_of_halted hr, run_of_halted hr]
  | running => simp only [run, hr, h]

end Sys2Proof.Machine
end

section
/-! PROOFS. The obligations of 10_state.md. -/

namespace Sys2Proof.Machine

/-- Settles O36: HALTED changes nothing, and a RUNNING cycle keeps every clause of the invariant. -/
theorem stepKeepsTheLegalStates : Obligations.StepKeepsTheLegalStates := by
  intro s t hs h
  cases hr : s.status with
  | halted =>
    rw [step_of_halted hr] at h
    injection h with h
    exact h ▸ hs
  | running => exact hs.step_of_running hr h

/-- Settles O25, from the effect of the completing instructions. -/
theorem onlyTheDestinationRegisterChanges : Obligations.OnlyTheDestinationRegisterChanges := by
  intro i s t h k hk hdest
  rcases exec_cases h with hc | ⟨r, rfl, -⟩
  · rcases hc.effect.regs with hregs | ⟨a, r, v, ha, hr, hregs⟩
    · simp [hregs]
    · have hne : r.val ≠ k := val_of_regIndex hr ▸ hdest a ha
      simp [hregs, Vector.getElem_set_ne _ _ hne]
  · rfl

/-- Settles O26, from the effect of the completing instructions. -/
theorem onlyCmpChangesTheFlags : Obligations.OnlyCmpChangesTheFlags := by
  intro i s t h hcmp
  rcases exec_cases h with hc | ⟨r, rfl, -⟩
  · rcases hc.effect.flags with hflags | ⟨a, b, _, _, hi, _⟩
    · exact hflags
    · exact absurd hi (hcmp a b)
  · rfl

/-- Settles O27, from the effect of the completing instructions. -/
theorem onlyPushAndPopChangeSp : Obligations.OnlyPushAndPopChangeSp := by
  intro i s t h hpush hpop
  rcases exec_cases h with hc | ⟨r, rfl, -⟩
  · rcases hc.effect.sp with hsp | ⟨a, hi, _⟩ | ⟨a, hi, _⟩
    · exact hsp
    · exact absurd hi (hpush a)
    · exact absurd hi (hpop a)
  · rfl

/-- Settles O29, from the control effect: HLT and PRN append one event each. -/
theorem onlyPrnAndHltEmit : Obligations.OnlyPrnAndHltEmit := by
  intro i s t h
  have unchanged (hout : t.output = s.output) : (∃ es : List Event, t.output = s.output ++ es ∧ es.length ≤ 1) ∧
      ((∀ a : Byte, i ≠ .prn a) → i ≠ .hlt → t.output = s.output) := ⟨⟨[], by simp [hout]⟩, fun _ _ => hout⟩
  rcases exec_cases h with hc | ⟨r, rfl, -⟩
  · rcases hc.effect.control with ⟨hi, -, -, hout⟩ | ⟨-, -, hout | ⟨a, v, hi, hout⟩⟩
    · exact ⟨⟨_, hout, le_rfl⟩, fun _ hhlt => absurd hi hhlt⟩
    · exact unchanged hout
    · exact ⟨⟨_, hout, le_rfl⟩, fun hprn _ => absurd hi (hprn a)⟩
  · exact unchanged rfl

/-- Settles O31: a completion leaves `pc` at `pcAfter`, a fault leaves it alone, and the halt report tells the two apart. -/
theorem pcAfterEachInstruction : Obligations.PcAfterEachInstruction := by
  intro i s t hrun hfit h
  rcases exec_cases h with hc | ⟨r, rfl, -⟩
  · refine ⟨fun r hr hhalt => ?_, fun _ _ _ => hc.toNat_pc hfit⟩
    rcases hc.effect.control with ⟨-, -, hclean, -⟩ | ⟨hstatus, -, -⟩
    · simp [hclean] at hr
    · simp [hstatus, hrun] at hhalt
  · exact ⟨fun _ _ _ => rfl, fun hdone => by simp at hdone⟩

/-- Settles O32, by the cycle's cases: the one instruction that halts is HLT, whose dispatch entry gives the byte at `pc`. -/
theorem onlyHltAndFaultsHalt : Obligations.OnlyHltAndFaultsHalt := by
  intro s t hrun hnone h
  rcases step_cases hrun h with ⟨i, hfit, hd, hi⟩ | ⟨r, rfl, -⟩
  · rcases exec_cases hi with hc | ⟨r, rfl, -⟩
    · rcases hc.effect.control with ⟨rfl, hstatus, hreason, -⟩ | ⟨hstatus, hreason, -⟩
      · exact .inr (.inl ⟨hstatus, hreason, Nat.lt_of_succ_le hfit, (byte_of_dispatch hd).symm⟩)
      · exact .inl ⟨hstatus.trans hrun, hreason.trans hnone⟩
    · exact .inr (.inr ⟨rfl, r, rfl⟩)
  · exact .inr (.inr ⟨rfl, r, rfl⟩)

/-- Settles O39: a load that fits gives the reset state with the bytes written from cell 0 on. -/
theorem loadResetsEverything : Obligations.LoadResetsEverything := by
  refine ⟨fun s bytes hlen => ?_, rfl, rfl, rfl, rfl, fun s hs => ?_⟩
  · rw [load_of_le s hlen]
    refine ⟨rfl, rfl, fun k hk => ?regs, rfl, fun k hk => ?inside, fun k hk => ?outside, rfl, rfl, rfl⟩
    case regs => exact Vector.getElem_replicate hk
    case inside => simpa [loaded] using Memory.read_writeBytes_inside bytes [] 0 k hk
    case outside => exact Memory.read_writeBytes_other bytes [] 0 k (.inr (by omega))
  · rw [load_of_le s (Nat.zero_le _), hs]
    rfl

/-- Settles O42, by induction on the limit: both runs take the step's next state, which in HALTED is the state itself. -/
theorem runIsRepeatedStep : Obligations.RunIsRepeatedStep := by
  intro fuel
  induction fuel with
  | zero => exact fun _ => rfl
  | succ k ih =>
    intro s
    obtain ⟨t, ht⟩ := step_next s
    rw [run_succ_of_next ht, ih t]
    exact (core_run_succ_of_next (M := core) ht k).symm

/-- Settles O47: both steps agree, up to L and G, with the step of the one state that has them cleared. -/
theorem flagsLAndGAreNeverRead : Obligations.FlagsLAndGAreNeverRead := by
  intro s s' t t' hss h h'
  rw [sameButLG_iff] at hss ⊢
  have hsteps : outcomeUpToLG (step s) = outcomeUpToLG (step s') := by rw [← step_eraseLG s, hss, step_eraseLG s']
  rw [h, h'] at hsteps
  exact Host.Outcome.next.inj hsteps

/-- Settles O37. -/
theorem resetIsLegal : Obligations.ResetIsLegal where
  params_legal := by decide
  mem_wf := reset_mem_wf
  pc_range := by decide
  sp_range := by decide
  flags_range := by decide
  reason_status := by decide
  report_pc := fun _ h => nomatch h
  output_form := fun _ => ⟨[], rfl⟩
  trace_quiet := fun _ => rfl

end Sys2Proof.Machine
end

section
/-! PROOFS. A fault that shows in the halt report is one the instruction raises, and in a legal state no stack address leaves the RAM. -/

namespace Sys2Proof.Machine

/-- R30: a completing instruction puts no fault in a report that was NONE. -/
theorem Completes.haltReason_ne_fault {i : Instr} {s t : State} (h : Completes i s t) (hnone : s.haltReason = .none)
    (r : FaultReport) : t.haltReason ≠ .fault r := by
  rcases h.effect.control with ⟨-, -, hclean, -⟩ | ⟨-, hsame, -⟩
  · simp [hclean]
  · simp [hsame, hnone]

/-- R166: a fault reported after `exec` is raised by the instruction, and halting with it is all that happens. -/
theorem exec_eq_faulted {i : Instr} {s t : State} {r : FaultReport} (hnone : s.haltReason = .none)
    (h : exec i s = .next t) (hr : t.haltReason = .fault r) :
    t = faulted s r ∧ r.p = some s.pc ∧ r.opcode = some i.opcode.byte ∧ Raises i s r.kind := by
  rcases exec_cases h with hc | ⟨r', rfl, hraised⟩
  · exact absurd hr (hc.haltReason_ne_fault hnone r)
  · obtain rfl : r' = r := HaltReason.fault.inj hr
    exact ⟨rfl, hraised⟩

/-- R51: PUSH above the floor stores below SP_EMPTY, and POP of a non-empty stack loads below it; both are cells of the RAM. -/
theorem State.Inv.not_raises_addressOutOfRange {s : State} (hs : s.Inv) (i : Instr) : ¬ Raises i s .addressOutOfRange := by
  rintro (⟨-, hfloor, hstore⟩ | ⟨-, hempty, hload⟩)
  · obtain ⟨-, -, -, hcell⟩ := hs.pushAddress_bounds hfloor
    exact hstore.not_gt hcell
  · exact hload.not_gt (hempty.trans_le hs.spEmpty_le)

end Sys2Proof.Machine
end

section
/-! PROOFS. What a PUSH that leaves the core RUNNING stores, and which byte at `pc` makes the next step an HLT. -/

namespace Sys2Proof.Machine

/-- R140, R166: a PUSH after which the core is RUNNING did not fault, so it stored its register in a cell. -/
theorem exec_push_stores_of_running {s t : State} {a : Byte} (ha : a.toNat < 8) (h : exec (.push a) s = .next t)
    (hrun : t.status = .running) : pushAddress s < 256 ∧ t.mem = s.mem.write (pushAddress s) s.regs[a.toNat] := by
  rcases exec_cases h with ⟨r, hreg, -, hcell, rfl⟩ | ⟨r, rfl, -⟩
  · simp [hcell, readReg_eq, val_of_regIndex hreg]
  · simp at hrun

/-- R92, R97: HLT declares no operand byte, so its byte in any cell at `pc` is the whole instruction. -/
theorem step_of_hlt_byte {s : State} (hrun : s.status = .running) (hpc : s.pc.toNat < 256)
    (hbyte : s.mem.read s.pc.toNat = Opcode.hlt.byte) : step s = exec .hlt (sampleTrace s) :=
  step_of_ok hrun (fetch_of_fits s (o := .hlt) (hbyte ▸ dispatch_byte .hlt) hpc)

end Sys2Proof.Machine
end

section
/-! PROOFS. The obligations of 20_memory.md. -/

namespace Sys2Proof.Machine

/-- Settles O28, from the frame of `exec`: the memory stays, or PUSH has written its store address. -/
theorem onlyPushChangesMemory : Obligations.OnlyPushChangesMemory := by
  intro i s t h x hx
  obtain ⟨-, -, hmem | ⟨a, v, hi, -, hmem⟩⟩ := exec_frame h
  · rw [hmem]
  · rw [hmem, Memory.read_write_other _ _ _ _ (hx a hi)]

/-- Settles O35: a reported fault was raised by the instruction, and a legal state's stack addresses are cells. -/
theorem handlersNeverLeaveTheRam : Obligations.HandlersNeverLeaveTheRam := by
  intro i s t r hs hnone h hr hkind
  obtain ⟨-, -, -, hraises⟩ := exec_eq_faulted hnone h hr
  exact hs.not_raises_addressOutOfRange i (hkind ▸ hraises)

/-- Settles O51: the read at `pc` after the PUSH is the byte just stored there, HLT's. -/
theorem pushedOpcodeIsFetchedNext : Obligations.PushedOpcodeIsFetchedNext := by
  intro s t a ha _ _ _ h hrun hpc hhlt
  obtain ⟨hcell, hmem⟩ := exec_push_stores_of_running ha h hrun
  have hbyte : t.mem.read t.pc.toNat = Opcode.hlt.byte := by
    rw [hpc, hmem, Memory.read_write_same]
    exact hhlt
  exact step_of_hlt_byte hrun (hpc.trans_lt hcell) hbyte

end Sys2Proof.Machine
end

section
/-! PROOFS. The encoder as the decoder's inverse, and which byte values have a dispatch entry. -/

namespace Sys2Proof

/-- R71: the operand bytes fill the width after the opcode byte (Laws.Width for every instruction at once). -/
theorem operands_length_add_one (i : Instr) : i.operands.length + 1 = i.opcode.width := by cases i <;> rfl

theorem encode_length (i : Instr) : (encode i).length = i.opcode.width := operands_length_add_one i

/-- R71, R73: an instruction is its entry's, at the first two bytes from its operands on; an undeclared one has no effect. -/
theorem opcode_instr_operands (i : Instr) (rest : List Byte) :
    i.opcode.instr ((i.operands ++ rest)[0]?.getD 0) ((i.operands ++ rest)[1]?.getD 0) = i := by
  cases i <;> rfl

/-- R71, R93: an entry's instruction, read from bytes that hold its declared operands, has just those as its operands. -/
theorem operands_instr {o : Opcode} {bytes : List Byte} (hw : o.width ≤ bytes.length + 1) :
    (o.instr (bytes[0]?.getD 0) (bytes[1]?.getD 0)).operands = bytes.take (o.width - 1) := by
  match bytes with
  | a :: b :: rest => cases o <;> rfl
  | [a] =>
    cases o with
    | hlt | prn | push | pop | jmp | jeq | jne => rfl
    | ldi | cmp | add | sub | mul | div | mod => exact absurd hw (Nat.not_succ_le_self 2)
  | [] =>
    cases o with
    | hlt => rfl
    | ldi | prn | push | pop | jmp | jeq | jne | cmp | add | sub | mul | div | mod => exact absurd hw (by decide)

/-- R92, R93: bytes that decode start with a dispatched opcode byte and hold the operands its entry declares. -/
theorem decode_ok_cases {bytes rest : List Byte} {i : Instr} (h : decode bytes = .ok (i, rest)) :
    ∃ o tail, bytes = Opcode.byte o :: tail ∧ o.width ≤ tail.length + 1 ∧
      i = o.instr (tail[0]?.getD 0) (tail[1]?.getD 0) ∧ rest = tail.drop (o.width - 1) := by
  cases bytes with
  | nil => cases h
  | cons op tail =>
    cases hd : dispatch op with
    | none => rw [decode_of_none tail hd] at h; cases h
    | some o =>
      obtain hw | hw := le_or_gt o.width (tail.length + 1)
      · rw [decode_of_width tail hd hw] at h
        cases h
        exact ⟨o, tail, by rw [byte_of_dispatch hd], hw, rfl, rfl⟩
      · rw [decode_of_short tail hd hw] at h; cases h

/-- R71 to R73: the encoding holds the operands its opcode declares, so its width is what the decoder takes off. -/
theorem decode_encode_append (i : Instr) (rest : List Byte) : decode (encode i ++ rest) = .ok (i, rest) := by
  have hlen := operands_length_add_one i
  have hfits : i.opcode.width ≤ (i.operands ++ rest).length + 1 := by simp; omega
  rw [encode, List.cons_append, decode_of_width _ (dispatch_byte _) hfits, opcode_instr_operands,
    List.drop_left' (Nat.eq_sub_of_add_eq hlen)]

/-- R70, R79: what the decoder takes off is the opcode byte of its entry and the declared operand bytes. -/
theorem eq_encode_append_of_decode {bytes rest : List Byte} {i : Instr} (h : decode bytes = .ok (i, rest)) :
    bytes = encode i ++ rest := by
  obtain ⟨o, tail, rfl, hw, rfl, rfl⟩ := decode_ok_cases h
  rw [encode, instr_opcode, operands_instr hw, List.cons_append, List.take_append_drop]

/-- R74, R78: a byte has no entry when it is no mnemonic's opcode byte. -/
theorem dispatch_eq_none_of_notMem {op : Byte} (h : op ∉ Opcode.all.map Opcode.byte) : dispatch op = none := by
  refine List.find?_eq_none.mpr fun o ho hop => h ?_
  exact List.mem_map.mpr ⟨o, ho, by simpa using hop⟩

theorem Opcode.mem_all (o : Opcode) : o ∈ Opcode.all := by cases o <;> decide

/-- R74, R76: the byte values that have an entry are the fourteen opcode bytes, each once. -/
theorem dispatched_values_perm :
    ((List.range 256).filter fun n => !(dispatch (BitVec.ofNat 8 n) == none)).Perm (Opcode.all.map fun o => o.byte.toNat) := by
  refine (List.perm_ext_iff_of_nodup (List.nodup_range.filter _) (by decide)).mpr fun n => ?_
  simp only [List.mem_filter, List.mem_range, List.mem_map]
  constructor
  · rintro ⟨hn, hd⟩
    obtain ⟨o, ho⟩ : ∃ o, dispatch (BitVec.ofNat 8 n) = some o := Option.isSome_iff_exists.mp (by simpa using hd)
    exact ⟨o, o.mem_all, by rw [byte_of_dispatch ho, BitVec.toNat_ofNat, Nat.mod_eq_of_lt hn]⟩
  · rintro ⟨o, -, rfl⟩
    exact ⟨o.byte.isLt, by simp⟩

/-- R78: so 256 - 14 byte values have none. -/
theorem undispatched_values_length :
    ((List.range 256).filter fun n => dispatch (BitVec.ofNat 8 n) == none).length = 242 := by
  have htotal := List.length_eq_length_filter_add (l := List.range 256) fun n => dispatch (BitVec.ofNat 8 n) == none
  have hentries : (Opcode.all.map fun o => o.byte.toNat).length = 14 := rfl
  rw [List.length_range, dispatched_values_perm.length_eq] at htotal
  omega

end Sys2Proof
end

section
/-! PROOFS. The obligations of 30_encoding.md. -/

namespace Sys2Proof

/-- Settles O43: the opcode byte dispatches to its own entry, whose declared operands are all there. -/
theorem decodeUndoesEncode : Obligations.DecodeUndoesEncode :=
  decode_encode_append

/-- Settles O44, by what the decoder needs to succeed: an entry's opcode byte and the operands the entry declares. -/
theorem decodedBytesAreTheEncoding : Obligations.DecodedBytesAreTheEncoding :=
  fun _ _ i h => ⟨eq_encode_append_of_decode h, encode_length i⟩

/-- Settles O45: the fourteen rows are evaluated; a byte that is no row's has no entry, and that leaves 256 - 14. -/
theorem dispatchTableIsTheOpcodeMap : Obligations.DispatchTableIsTheOpcodeMap :=
  ⟨by decide, fun _ hop => dispatch_eq_none_of_notMem hop, undispatched_values_length⟩

/-- Settles O46: each word is the encoding of its instruction, which decodes back. -/
theorem writtenWordsDecode : Obligations.WrittenWordsDecode :=
  ⟨decode_encode_append .hlt [], decode_encode_append (.ldi 7 255) [], decode_encode_append (.prn 3) [],
    decode_encode_append (.push 0) [], decode_encode_append (.jmp 10) [], decode_encode_append (.sub 2 3) [],
    decode_encode_append (.cmp 1 4) []⟩

end Sys2Proof
end

section
/-! PROOFS. The register operands of R94: which instructions are ill-formed, and what running one of them does. -/

namespace Sys2Proof

theorem validRegByte_eq_false_iff (v : Byte) : validRegByte v = false ↔ 8 ≤ v.toNat := by
  simp [validRegByte, Config.numRegs]

theorem validRegBytes_eq_false_iff (a b : Byte) :
    (validRegByte a && validRegByte b) = false ↔ 8 ≤ a.toNat ∨ 8 ≤ b.toNat := by
  rw [Bool.and_eq_false_iff, validRegByte_eq_false_iff, validRegByte_eq_false_iff]

/-- R72, R94: the format says which operand bytes name a register, `ra` in every register format and `rb` in RR alone. -/
theorem wellFormed_instr_eq_false_iff (o : Opcode) (a b : Byte) :
    (o.instr a b).wellFormed = false ↔
      ((o.format = .r ∨ o.format = .ri ∨ o.format = .rr) ∧ 8 ≤ a.toNat) ∨ (o.format = .rr ∧ 8 ≤ b.toNat) := by
  cases o with
  | hlt | jmp => simp [Opcode.instr, Instr.wellFormed, Opcode.format]
  | ldi | prn | push | pop | jeq | jne => exact (validRegByte_eq_false_iff a).trans (by simp [Opcode.format])
  | cmp | add | sub | mul | div | mod => exact (validRegBytes_eq_false_iff a b).trans (by simp [Opcode.format])

/-- R71, R72: an instruction with a register operand declares an operand byte. -/
theorem two_le_width_of_not_wellFormed {o : Opcode} {a b : Byte} (h : (o.instr a b).wellFormed = false) : 2 ≤ o.width := by
  cases o with
  | hlt => cases h
  | _ => decide

theorem width_of_format_rr {o : Opcode} (h : o.format = .rr) : o.width = 3 := by
  rw [Opcode.width, h]
  rfl

/-- R71: the first operand byte is declared by every width but 1. -/
theorem operands_instr_zero {o : Opcode} (a b : Byte) (hw : 2 ≤ o.width) : (o.instr a b).operands[0]? = some a := by
  cases o with
  | hlt => exact absurd hw (by decide)
  | _ => rfl

/-- R71: the second operand byte is declared by width 3 alone. -/
theorem operands_instr_one (o : Opcode) (a b : Byte) :
    (o.instr a b).operands[1]? = if o.width = 3 then some b else none := by
  cases o <;> rfl

end Sys2Proof

namespace Sys2Proof.Machine

/-- R94: a handler behind the validation of its register operands never runs on an ill-formed instruction. -/
theorem exec_of_not_wellFormed {i : Instr} (s : State) (h : i.wellFormed = false) :
    exec i s = .next (faulted s (instrReport .invalidRegister i.opcode i.operands[0]? i.operands[1]? s)) := by
  cases i with
  | hlt | jmp _ => cases h
  | ldi a _ | prn a | push a | pop a | jeq a | jne a =>
    exact congrArg Host.Outcome.next (withReg_of_ge _ _ s _ ((validRegByte_eq_false_iff a).mp h).not_gt)
  | cmp a b | add a b | sub a b | mul a b | div a b | mod a b =>
    have hbad : ¬ (a.toNat < 8 ∧ b.toNat < 8) := by
      have hge := (validRegBytes_eq_false_iff a b).mp h
      omega
    exact congrArg Host.Outcome.next (withRegs_of_ge _ s _ hbad)

/-- R94, R163: the report of an ill-formed instruction by the operand bytes its width declares. -/
theorem exec_instr_of_not_wellFormed {o : Opcode} {a b : Byte} (s : State) (h : (o.instr a b).wellFormed = false) :
    exec (o.instr a b) s =
      .next (faulted s (instrReport .invalidRegister o (some a) (if o.width = 3 then some b else none) s)) := by
  rw [exec_of_not_wellFormed s h, instr_opcode, operands_instr_zero a b (two_le_width_of_not_wellFormed h), operands_instr_one]

/-- R94, R97: the pseudocode's two register checks, `ra` before `rb`, then the handler. -/
theorem exec_instr_eq_ite (o : Opcode) (a b : Byte) (s : State) :
    exec (o.instr a b) s =
      if (o.format = .r ∨ o.format = .ri ∨ o.format = .rr) ∧ 8 ≤ a.toNat then
        .next (faulted s (instrReport .invalidRegister o (some a) (if o.width = 3 then some b else none) s))
      else if o.format = .rr ∧ 8 ≤ b.toNat then
        .next (faulted s (instrReport .invalidRegister o (some a) (some b) s))
      else exec (o.instr a b) s := by
  have hbad := wellFormed_instr_eq_false_iff o a b
  split
  case isTrue ha => exact exec_instr_of_not_wellFormed s (hbad.mpr (.inl ha))
  case isFalse =>
    split
    case isTrue hb =>
      rw [exec_instr_of_not_wellFormed s (hbad.mpr (.inr hb)), if_pos (width_of_format_rr hb.1)]
    case isFalse => rfl

end Sys2Proof.Machine
end

section
/-! PROOFS. The cycle of a RUNNING core by what stands at `pc`: an instruction whose declared bytes are there, or its encoding. -/

namespace Sys2Proof.Machine

/-- R92, R93: the cycle fetches what the bytes at `pc` decode to. -/
theorem fetch_of_decode {s : State} {i : Instr} {rest : List Byte} (h : decode (candidateBytes s) = .ok (i, rest)) :
    fetch s = .ok i := by
  rw [fetch, h]

/-- R93, R97: when every declared byte is there, the entry's instruction runs on them; an undeclared one may be any byte. -/
theorem step_of_fits {s : State} {o : Opcode} {a b : Byte} (hrun : s.status = .running)
    (hd : dispatch (s.mem.read s.pc.toNat) = some o) (hfit : s.pc.toNat + o.width ≤ 256)
    (ha : 2 ≤ o.width → a = s.mem.read (s.pc.toNat + 1)) (hb : o.width = 3 → b = s.mem.read (s.pc.toNat + 2)) :
    step s = exec (o.instr a b) (sampleTrace s) := by
  rw [step_of_ok hrun (fetch_of_fits s hd hfit), instr_congr o ha hb]

/-- The encoding of `i` stands byte for byte in the cells from `pc` on, all of them inside the RAM. -/
def StoredAtPc (i : Instr) (s : State) : Prop :=
  ∀ (k : Nat) (h : k < (encode i).length), s.pc.toNat + k < 256 ∧ s.mem.read (s.pc.toNat + k) = (encode i)[k]

/-- R53, R71: the opcode byte stands first. -/
theorem StoredAtPc.dispatch_read {i : Instr} {s : State} (h : StoredAtPc i s) :
    dispatch (s.mem.read s.pc.toNat) = some i.opcode := by
  obtain ⟨-, hbyte⟩ := h 0 (Nat.succ_pos _)
  exact (congrArg dispatch hbyte).trans (dispatch_byte i.opcode)

theorem StoredAtPc.fits {i : Instr} {s : State} (h : StoredAtPc i s) : s.pc.toNat + i.opcode.width ≤ 256 := by
  have hpos := width_pos i.opcode
  obtain ⟨hlast, -⟩ := h (i.opcode.width - 1) (by rw [encode_length]; omega)
  omega

/-- R53, R71: operand byte number `k` stands `k + 1` cells after the opcode byte. -/
theorem StoredAtPc.operand {i : Instr} {s : State} (h : StoredAtPc i s) {k : Nat} (hk : k + 1 < i.opcode.width) :
    (i.operands ++ [])[k]?.getD 0 = s.mem.read (s.pc.toNat + (k + 1)) := by
  have hlen := operands_length_add_one i
  obtain ⟨-, hbyte⟩ := h (k + 1) (by rwa [encode_length])
  rw [hbyte, List.append_nil, List.getElem?_eq_getElem (by omega), Option.getD_some]
  rfl

/-- R92, R93, R95: the stored instruction is the one that runs. -/
theorem StoredAtPc.step_eq {i : Instr} {s : State} (h : StoredAtPc i s) (hrun : s.status = .running) :
    step s = exec i (sampleTrace s) := by
  rw [step_of_fits hrun h.dispatch_read h.fits (fun hw => h.operand (k := 0) hw) (fun hw => h.operand (k := 1) hw.ge),
    opcode_instr_operands]

end Sys2Proof.Machine
end

section
/-! PROOFS. The obligations of 40_cycle.md. -/

namespace Sys2Proof.Machine

/-- Settles O2: the stored opcode byte dispatches to the instruction's entry and the stored operands are the ones it declares. -/
theorem stepRunsTheInstructionStoredAtPc : Obligations.StepRunsTheInstructionStoredAtPc :=
  fun _ _ hrun hstored => StoredAtPc.step_eq hstored hrun

/-- Settles O3, along the branches of the pseudocode: the first four are the fetch's own faults, the two register checks are the
ways in which the fetched instruction can be ill-formed, and the last is its handler. -/
theorem stepFollowsTheCyclePseudocode : Obligations.StepFollowsTheCyclePseudocode := by
  intro s
  dsimp only
  cases hrun : s.status with
  | halted => exact step_of_halted hrun
  | running =>
    simp only [reduceCtorEq, ↓reduceIte]
    by_cases htop : 256 ≤ s.pc.toNat
    · rw [if_pos htop]
      exact step_of_error hrun (fetch_of_ge s htop)
    rw [if_neg htop]
    cases hd : dispatch (s.mem.read s.pc.toNat) with
    | none => exact step_of_error hrun (fetch_of_none s (by omega) hd)
    | some d =>
      dsimp only
      rw [← byte_of_dispatch hd]
      by_cases hfirst : 2 ≤ d.width ∧ 256 ≤ s.pc.toNat + 1
      · rw [if_pos hfirst]
        exact step_of_error hrun (fetch_of_short_one s (by omega) hd hfirst.1 hfirst.2)
      rw [if_neg hfirst]
      by_cases hsecond : d.width = 3 ∧ 256 ≤ s.pc.toNat + 2
      · rw [if_pos hsecond]
        exact step_of_error hrun (fetch_of_short_two s (by omega) hd hsecond.1 hsecond.2)
      have hle := width_le d
      rw [if_neg hsecond, step_of_fits hrun hd (by omega) (fun _ => rfl) (fun _ => rfl)]
      exact exec_instr_eq_ite d _ _ (sampleTrace s)

/-- Settles O7: the fetch's two faults of a missing operand byte, and the cycle whose declared bytes are all there. -/
theorem declaredOperandBytesAreFetched : Obligations.DeclaredOperandBytesAreFetched := by
  intro s d hrun hpc hd
  refine ⟨fun hw h1 => ?first, fun hw h1 h2 => ?second, fun hfit a b ha hb => ?fits⟩
  case first => exact step_of_error hrun (fetch_of_short_one s hpc hd hw h1)
  case second => exact step_of_error hrun (fetch_of_short_two s h1 hd hw h2)
  case fits => exact step_of_fits hrun hd hfit ha hb

/-- Settles O8: the validation stands before every handler, and InvalidRegister is raised by an ill-formed instruction only. -/
theorem registerOperandsAreValidated : Obligations.RegisterOperandsAreValidated := by
  refine ⟨fun i s hbad => exec_of_not_wellFormed s hbad, fun i s t r hwf hnone h hr hkind => ?_⟩
  obtain ⟨-, -, -, hraises⟩ := exec_eq_faulted hnone h hr
  have hbad : i.wellFormed = false := by rwa [hkind] at hraises
  simp [hwf] at hbad

/-- Settles O1: the cycle fetches what its bytes decode to. -/
theorem stepRunsTheDecodedInstruction : Obligations.StepRunsTheDecodedInstruction :=
  fun _ _ _ hrun hdecode => step_of_ok hrun (fetch_of_decode hdecode)

/-- Settles O4: in HALTED the cycle answers the state itself. -/
theorem haltedStepChangesNothing : Obligations.HaltedStepChangesNothing :=
  fun _ => step_of_halted

/-- Settles O5: past the top the fetch answers its AddressOutOfRange report. -/
theorem fetchPastTheTopFaults : Obligations.FetchPastTheTopFaults :=
  fun s hrun htop => step_of_error hrun (fetch_of_ge s htop)

/-- Settles O6: a byte without an entry makes the fetch answer its InvalidOpcode report. -/
theorem unassignedOpcodeFaults : Obligations.UnassignedOpcodeFaults :=
  fun s hrun hpc hnone => step_of_error hrun (fetch_of_none s hpc hnone)

end Sys2Proof.Machine
end

section
/-! PROOFS. What the six ALU operations answer (R110 to R115), and what the ALU step makes of an answer on validated registers. -/

namespace Sys2Proof.Machine

theorem aluAdd_eq_result {ov : ArithOverflow} {u v : Byte} (h : ov = .wrap ∨ u.toNat + v.toNat ≤ 255) :
    aluAdd ov u v = .result (BitVec.ofNat 8 ((u.toNat + v.toNat) % 256)) := by
  rw [aluAdd, ← Int.natCast_add, narrow_nat ov _ h]

theorem aluAdd_eq_overflow {ov : ArithOverflow} {u v : Byte} (hov : ov = .fault) (h : 255 < u.toNat + v.toNat) :
    aluAdd ov u v = .fault .arithmeticOverflow := by
  rw [aluAdd, hov, ← Int.natCast_add, narrow_nat_overflow _ h]

theorem aluSub_eq_result {ov : ArithOverflow} {u v : Byte} (h : ov = .wrap ∨ v.toNat ≤ u.toNat) :
    aluSub ov u v = .result (BitVec.ofNat 8 ((u.toNat + 256 - v.toNat) % 256)) :=
  narrow_sub ov u.toNat v.toNat u.isLt v.isLt h

theorem aluSub_eq_overflow {ov : ArithOverflow} {u v : Byte} (hov : ov = .fault) (h : u.toNat < v.toNat) :
    aluSub ov u v = .fault .arithmeticOverflow := by
  rw [aluSub, hov, narrow_sub_overflow _ _ h]

theorem aluMul_eq_result {ov : ArithOverflow} {u v : Byte} (h : ov = .wrap ∨ u.toNat * v.toNat ≤ 255) :
    aluMul ov u v = .result (BitVec.ofNat 8 ((u.toNat * v.toNat) % 256)) := by
  rw [aluMul, ← Int.natCast_mul, narrow_nat ov _ h]

theorem aluMul_eq_overflow {ov : ArithOverflow} {u v : Byte} (hov : ov = .fault) (h : 255 < u.toNat * v.toNat) :
    aluMul ov u v = .fault .arithmeticOverflow := by
  rw [aluMul, hov, ← Int.natCast_mul, narrow_nat_overflow _ h]

theorem aluDiv_of_ne_zero (u : Byte) {v : Byte} (h : v ≠ 0) : aluDiv u v = .result (BitVec.ofNat 8 (u.toNat / v.toNat)) :=
  if_neg h

theorem aluDiv_of_zero (u : Byte) {v : Byte} (h : v = 0) : aluDiv u v = .fault .divisionByZero :=
  if_pos h

theorem aluMod_of_ne_zero (u : Byte) {v : Byte} (h : v ≠ 0) : aluMod u v = .result (BitVec.ofNat 8 (u.toNat % v.toNat)) :=
  if_neg h

theorem aluMod_of_zero (u : Byte) {v : Byte} (h : v = 0) : aluMod u v = .fault .divisionByZero :=
  if_pos h

theorem aluCmp_eq_flags (u v : Byte) : aluCmp u v = .flags
    { e := decide (u.toNat = v.toNat), l := decide (u.toNat < v.toNat), g := decide (u.toNat > v.toNat) } := by
  rw [aluCmp, compareFlags_eq]

/-- R94, R116: on validated registers the step commits the answer for their two values. -/
theorem aluStep_of_lt (o : Opcode) (op : Byte → Byte → AluOut) {a b : Byte} (s : State) (ha : a.toNat < 8) (hb : b.toNat < 8) :
    aluStep o op a b s = aluCommit o a b ⟨a.toNat, ha⟩ s (op s.regs[a.toNat] s.regs[b.toNat]) :=
  withRegs_of_lt o s _ ha hb

section
variable {o : Opcode} {op : Byte → Byte → AluOut} {a b : Byte} {s : State} (ha : a.toNat < 8) (hb : b.toNat < 8)

/-- R116: a result goes to `ra` alone, and `pc` passes the three bytes of the format RR. -/
theorem aluStep_of_result {v : Byte} (ho : o.format = .rr) (h : op s.regs[a.toNat] s.regs[b.toNat] = .result v) :
    aluStep o op a b s = { s with regs := s.regs.set a.toNat v, pc := s.pc + 3 } := by
  rw [aluStep_of_lt o op s ha hb, h, aluCommit_result, width_of_format_rr ho]
  rfl

theorem aluStep_of_flags {f : Flags} (ho : o.format = .rr) (h : op s.regs[a.toNat] s.regs[b.toNat] = .flags f) :
    aluStep o op a b s = { s with flags := f, pc := s.pc + 3 } := by
  rw [aluStep_of_lt o op s ha hb, h, aluCommit_flags, width_of_format_rr ho]
  rfl

/-- R116, R166: a fault writes no register and no flag. -/
theorem aluStep_of_fault {k : FaultKind} (h : op s.regs[a.toNat] s.regs[b.toNat] = .fault k) :
    aluStep o op a b s = faulted s (instrReport k o (some a) (some b) s) := by
  rw [aluStep_of_lt o op s ha hb, h, aluCommit_fault]

end

end Sys2Proof.Machine
end

section
/-! PROOFS. The obligations of 41_alu.md: each instruction is its ALU step, whose answer is a result, flags or a fault. -/

namespace Sys2Proof.Machine

/-- Settles O10, by the two answers of the sum: narrowed to a result, or ArithmeticOverflow in the variant. -/
theorem addWritesTheSum : Obligations.AddWritesTheSum := by
  refine fun s a b ha hb => ⟨fun h => ?result, fun hov h => ?overflow⟩
  case result => exact congrArg Host.Outcome.next (aluStep_of_result ha hb rfl (aluAdd_eq_result h))
  case overflow => exact congrArg Host.Outcome.next (aluStep_of_fault ha hb (aluAdd_eq_overflow hov h))

/-- Settles O11, by the two answers of the difference. -/
theorem subWritesTheDifference : Obligations.SubWritesTheDifference := by
  refine fun s a b ha hb => ⟨fun h => ?result, fun hov h => ?overflow⟩
  case result => exact congrArg Host.Outcome.next (aluStep_of_result ha hb rfl (aluSub_eq_result h))
  case overflow => exact congrArg Host.Outcome.next (aluStep_of_fault ha hb (aluSub_eq_overflow hov h))

/-- Settles O12, by the two answers of the product. -/
theorem mulWritesTheProduct : Obligations.MulWritesTheProduct := by
  refine fun s a b ha hb => ⟨fun h => ?result, fun hov h => ?overflow⟩
  case result => exact congrArg Host.Outcome.next (aluStep_of_result ha hb rfl (aluMul_eq_result h))
  case overflow => exact congrArg Host.Outcome.next (aluStep_of_fault ha hb (aluMul_eq_overflow hov h))

/-- Settles O13, by the divisor: the quotient is a result, which no parameter makes overflow. -/
theorem divWritesTheQuotient : Obligations.DivWritesTheQuotient := by
  refine fun s a b ha hb => ⟨fun h => ?result, fun h => ?zero⟩
  case result => exact congrArg Host.Outcome.next (aluStep_of_result ha hb rfl (aluDiv_of_ne_zero _ h))
  case zero => exact congrArg Host.Outcome.next (aluStep_of_fault ha hb (aluDiv_of_zero _ h))

/-- Settles O14, by the divisor. -/
theorem modWritesTheRemainder : Obligations.ModWritesTheRemainder := by
  refine fun s a b ha hb => ⟨fun h => ?result, fun h => ?zero⟩
  case result => exact congrArg Host.Outcome.next (aluStep_of_result ha hb rfl (aluMod_of_ne_zero _ h))
  case zero => exact congrArg Host.Outcome.next (aluStep_of_fault ha hb (aluMod_of_zero _ h))

/-- Settles O15: the comparison's only answer is the three flags. -/
theorem cmpSetsExactlyOneFlag : Obligations.CmpSetsExactlyOneFlag :=
  fun _ _ _ ha hb => congrArg Host.Outcome.next (aluStep_of_flags ha hb rfl (aluCmp_eq_flags _ _))

end Sys2Proof.Machine
end

section
/-! PROOFS. The obligations of 42_basic.md: HLT names no register, LDI and PRN run on the register that R94 has validated. -/

namespace Sys2Proof.Machine

/-- R131: on a validated register LDI is a register write and an advance. -/
theorem exec_ldi_of_lt {a : Byte} (b : Byte) (s : State) (ha : a.toNat < 8) :
    exec (.ldi a b) s = .next (advance 3 (writeReg s ⟨a.toNat, ha⟩ b)) :=
  congrArg Host.Outcome.next (withReg_of_lt .ldi (some b) s _ ha)

/-- R132: on a validated register PRN is an event and an advance. -/
theorem exec_prn_of_lt {a : Byte} (s : State) (ha : a.toNat < 8) :
    exec (.prn a) s = .next (advance 2 (emit (.out (readReg s ⟨a.toNat, ha⟩)) s)) :=
  congrArg Host.Outcome.next (withReg_of_lt .prn none s _ ha)

/-- Settles O16: with no operand to validate, HLT's meaning in every state is the event of R130 and the two fields of its halt. -/
theorem hltHaltsCleanly : Obligations.HltHaltsCleanly :=
  fun _ => rfl

/-- Settles O17: the write and the advance change `ra` and `pc` alone. -/
theorem ldiLoadsTheImmediate : Obligations.LdiLoadsTheImmediate :=
  fun s _ b ha => exec_ldi_of_lt b s ha

/-- Settles O18: the event and the advance change the output and `pc` alone. -/
theorem prnEmitsTheRegister : Obligations.PrnEmitsTheRegister :=
  fun s _ ha => exec_prn_of_lt s ha

end Sys2Proof.Machine
end

section
/-! PROOFS. PUSH and POP past their bounds (R140, R141), and what makes POP undo PUSH. -/

namespace Sys2Proof.Machine

/-- R140: at or below the floor PUSH overflows. -/
theorem exec_push_of_le_floor {s : State} {a : Byte} (ha : a.toNat < 8) (hfloor : s.sp.toNat ≤ s.params.stackFloor) :
    exec (.push a) s = .next (faulted s (instrReport .stackOverflow .push (some a) none s)) := by
  refine congrArg Host.Outcome.next ((withReg_of_lt _ _ _ _ ha).trans ?_)
  rcases pushReg_cases a ⟨a.toNat, ha⟩ s with ⟨hlt, -⟩ | ⟨-, hfault⟩ | ⟨hlt, -⟩
  · omega
  · exact hfault
  · omega

/-- R141: an empty stack underflows. -/
theorem exec_pop_of_spEmpty_le {s : State} {a : Byte} (ha : a.toNat < 8) (hempty : s.params.spEmpty.toNat ≤ s.sp.toNat) :
    exec (.pop a) s = .next (faulted s (instrReport .stackUnderflow .pop (some a) none s)) := by
  refine congrArg Host.Outcome.next ((withReg_of_lt _ _ _ _ ha).trans ?_)
  rcases popReg_cases a ⟨a.toNat, ha⟩ s with ⟨hlt, -⟩ | ⟨-, hfault⟩ | ⟨hlt, -⟩
  · omega
  · exact hfault
  · omega

/-- R140: POP's increment undoes PUSH's decrement, also where the 9 bits wrap. -/
theorem pushPointer_add_one (s : State) : pushPointer s + 1 = s.sp :=
  BitVec.sub_add_cancel s.sp 1

/-- R8: writing back what a register holds changes nothing. -/
theorem writeReg_readReg (s : State) (r : Fin 8) : writeReg s r (readReg s r) = s :=
  congrArg (fun regs => { s with regs := regs }) (Vector.set_getElem_self r.isLt)

/-- R141: a POP that loads what its register already holds moves `sp` and `pc` alone. -/
theorem exec_pop_of_top_eq {s : State} {a : Byte} (ha : a.toNat < 8) (hempty : s.sp.toNat < s.params.spEmpty.toNat)
    (hcell : s.sp.toNat < 256) (htop : s.mem.read s.sp.toNat = readReg s ⟨a.toNat, ha⟩) :
    exec (.pop a) s = .next (advance 2 { s with sp := s.sp + 1 }) := by
  rw [exec_pop_of_lt_spEmpty ha hempty hcell, htop, writeReg_readReg]

end Sys2Proof.Machine
end

section
/-! PROOFS. The obligations of 43_stack.md. -/

namespace Sys2Proof.Machine

/-- Settles O50: the store address is below SP_EMPTY, so POP loads from it the byte that PUSH has just stored there. -/
theorem pushThenPopRestores : Obligations.PushThenPopRestores := by
  intro s a ha hfloor hsp hspEmpty
  have hadd := pushAddress_add_one s (by omega)
  have hempty : pushAddress s < s.params.spEmpty.toNat := by omega
  have hcell : pushAddress s < 256 := hempty.trans_le hspEmpty
  exact ⟨_, _, exec_push_of_floor_lt ha hfloor hcell,
    exec_pop_of_top_eq ha hempty hcell (Memory.read_write_same _ _ _),
    rfl, pushPointer_add_one s, rfl, BitVec.add_assoc s.pc _ _, rfl⟩

/-- Settles O19: above the floor the store address is a cell below the old `sp`, and the store is the only write. -/
theorem pushStoresTheRegister : Obligations.PushStoresTheRegister := by
  refine fun s a ha hsp => ⟨fun hfloor => ?stores, fun hfloor => exec_push_of_le_floor ha hfloor⟩
  case stores =>
    have hadd := pushAddress_add_one s (by omega)
    exact ⟨_, exec_push_of_floor_lt ha hfloor (by omega), rfl, hadd, Memory.read_write_same _ _ _,
      fun x hx => Memory.read_write_other _ _ _ _ hx⟩

/-- Settles O20, by the two sides of SP_EMPTY: a non-empty stack's top is a cell. -/
theorem popLoadsTheTopOfTheStack : Obligations.PopLoadsTheTopOfTheStack := by
  refine fun s a ha hspEmpty => ⟨fun hempty => ?loads, fun hempty => exec_pop_of_spEmpty_le ha hempty⟩
  case loads => exact exec_pop_of_lt_spEmpty ha hempty (hempty.trans_le hspEmpty)

end Sys2Proof.Machine
end

section
/-! PROOFS. The obligations of 44_branch.md: JMP names no register, JEQ and JNE branch on the register that R94 has validated. -/

namespace Sys2Proof.Machine

/-- R96 (b): a jump changes `pc` alone, to the target byte's own value in 9 bits. -/
theorem jump_eq_ofNat (target : Byte) (s : State) : jump target s = { s with pc := BitVec.ofNat 9 target.toNat } :=
  congrArg (fun pc => { s with pc := pc }) (BitVec.ofNat_toNat 9 target).symm

theorem branchReg_of_taken (o : Opcode) {taken : Bool} (r : Fin 8) (s : State) (h : taken = true) :
    branchReg o taken r s = { s with pc := BitVec.ofNat 9 (readReg s r).toNat } :=
  (if_pos h).trans (jump_eq_ofNat _ s)

theorem branchReg_of_not_taken (o : Opcode) {taken : Bool} (r : Fin 8) (s : State) (h : taken = false) :
    branchReg o taken r s = advance o.width s :=
  if_neg (ne_true_of_eq_false h)

/-- R151: on a validated register JEQ is the branch taken iff E is set. -/
theorem exec_jeq_of_lt {a : Byte} (s : State) (ha : a.toNat < 8) :
    exec (.jeq a) s = .next (branchReg .jeq s.flags.e ⟨a.toNat, ha⟩ s) :=
  congrArg Host.Outcome.next (withReg_of_lt .jeq none s _ ha)

/-- R152: on a validated register JNE is the branch taken iff E is clear. -/
theorem exec_jne_of_lt {a : Byte} (s : State) (ha : a.toNat < 8) :
    exec (.jne a) s = .next (branchReg .jne (!s.flags.e) ⟨a.toNat, ha⟩ s) :=
  congrArg Host.Outcome.next (withReg_of_lt .jne none s _ ha)

/-- Settles O21: JMP is the jump to its operand byte. -/
theorem jmpGoesToTheOperand : Obligations.JmpGoesToTheOperand :=
  fun s a => congrArg Host.Outcome.next (jump_eq_ofNat a s)

/-- Settles O22, by the two ways of the branch: E itself is its condition. -/
theorem jeqBranchesWhenEqual : Obligations.JeqBranchesWhenEqual := by
  refine fun s a ha => ⟨fun he => ?taken, fun he => ?untaken⟩
  case taken => rw [exec_jeq_of_lt s ha, branchReg_of_taken _ _ s he]; rfl
  case untaken => rw [exec_jeq_of_lt s ha, branchReg_of_not_taken _ _ s he]; rfl

/-- Settles O23, by the two ways of the branch: its condition is the negation of E. -/
theorem jneBranchesWhenNotEqual : Obligations.JneBranchesWhenNotEqual := by
  refine fun s a ha => ⟨fun he => ?taken, fun he => ?untaken⟩
  case taken => rw [exec_jne_of_lt s ha, branchReg_of_taken _ _ s ((Bool.not_eq_true' _).mpr he)]; rfl
  case untaken => rw [exec_jne_of_lt s ha, branchReg_of_not_taken _ _ s ((Bool.not_eq_false' _).mpr he)]; rfl

end Sys2Proof.Machine
end

section
/-! PROOFS. What a fault that a cycle reports is, and which opcodes an instruction's fault can name. -/

namespace Sys2Proof

/-- R76: no two mnemonics share an opcode byte. -/
theorem Opcode.byte_injective : Function.Injective Opcode.byte := fun o o' h => by
  simpa using congrArg dispatch h

/-- R72: HLT and JMP have no register operand that could be invalid. -/
theorem opcode_ne_of_not_wellFormed {i : Instr} (h : i.wellFormed = false) : i.opcode ≠ .hlt ∧ i.opcode ≠ .jmp := by
  cases i with
  | hlt | jmp _ => cases h
  | _ => exact ⟨nofun, nofun⟩

end Sys2Proof

namespace Sys2Proof.Machine

/-- The inversion lemma of a cycle's fault: halting with the report is all that happens after the trace sample (R166), and either
the fetched instruction raises it or the fetch itself does (R91 to R93). -/
theorem step_eq_faulted {s t : State} {r : FaultReport} (hrun : s.status = .running) (hnone : s.haltReason = .none)
    (h : step s = .next t) (hr : t.haltReason = .fault r) :
    t = faulted (sampleTrace s) r ∧ r.p = some s.pc ∧
      ((∃ i : Instr, r.opcode = some i.opcode.byte ∧ Raises i s r.kind) ∨
        (r.kind = .addressOutOfRange ∧ (r.opcode = none → 256 ≤ s.pc.toNat)) ∨
        (r.kind = .invalidOpcode ∧ ∃ op, r.opcode = some op)) := by
  rcases step_cases hrun h with ⟨i, -, -, hi⟩ | ⟨r', rfl, hp, hfetch⟩
  · obtain ⟨ht, hp, hop, hraises⟩ := exec_eq_faulted (s := sampleTrace s) hnone hi hr
    exact ⟨ht, hp, .inl ⟨i, hop, hraises⟩⟩
  · obtain rfl : r' = r := HaltReason.fault.inj hr
    exact ⟨rfl, hp, .inr (hfetch.imp_right fun ⟨hkind, op, hop, _⟩ => ⟨hkind, op, hop⟩)⟩

end Sys2Proof.Machine
end

section
/-! PROOFS. The trace is read by nothing: a cycle commutes with erasing the trace and switching it off. -/

namespace Sys2Proof.Machine

/-- The state with its trace empty and switched off: two states are `sameButTrace` when these agree. -/
def eraseTrace (s : State) : State := { s with trace := [], params := { s.params with traceEnable := false } }

theorem sameButTrace_iff (s t : State) : sameButTrace s t ↔ eraseTrace s = eraseTrace t := Iff.rfl

@[simp] theorem eraseTrace_sp (s : State) : (eraseTrace s).sp = s.sp := rfl
@[simp] theorem eraseTrace_mem (s : State) : (eraseTrace s).mem = s.mem := rfl
@[simp] theorem eraseTrace_stackFloor (s : State) : (eraseTrace s).params.stackFloor = s.params.stackFloor := rfl
@[simp] theorem eraseTrace_spEmpty (s : State) : (eraseTrace s).params.spEmpty = s.params.spEmpty := rfl
@[simp] theorem pushAddress_eraseTrace (s : State) : pushAddress (eraseTrace s) = pushAddress s := rfl

/-- R178: a state with its trace switched off gives no sample. -/
theorem sampleTrace_eraseTrace (s : State) : sampleTrace (eraseTrace s) = eraseTrace (sampleTrace s) := rfl

/-- A handler that commutes with `eraseTrace` on each register does so behind the validation of R94. -/
theorem withReg_eraseTrace (o : Opcode) (a : Byte) (b : Option Byte) (s : State) {k k' : Fin 8 → State}
    (hk : ∀ r, k' r = eraseTrace (k r)) : withReg o a b (eraseTrace s) k' = eraseTrace (withReg o a b s k) := by
  unfold withReg
  cases regIndex a with
  | none => rfl
  | some r => exact hk r

theorem pushReg_eraseTrace (a : Byte) (r : Fin 8) (s : State) :
    pushReg a r (eraseTrace s) = eraseTrace (pushReg a r s) := by
  simp only [pushReg, memWrite_eq, eraseTrace_sp, eraseTrace_stackFloor, pushAddress_eraseTrace]
  split
  · rfl
  · by_cases hcell : pushAddress s < 256 <;> simp only [hcell, ↓reduceIte] <;> rfl

theorem popReg_eraseTrace (a : Byte) (r : Fin 8) (s : State) :
    popReg a r (eraseTrace s) = eraseTrace (popReg a r s) := by
  simp only [popReg, popAddress, memRead_eq, eraseTrace_sp, eraseTrace_spEmpty, eraseTrace_mem]
  split
  · rfl
  · split <;> rfl

theorem branchReg_eraseTrace (o : Opcode) (taken : Bool) (r : Fin 8) (s : State) :
    branchReg o taken r (eraseTrace s) = eraseTrace (branchReg o taken r s) := by
  cases taken <;> rfl

theorem aluCommit_eraseTrace (o : Opcode) (a b : Byte) (ra : Fin 8) (s : State) (out : AluOut) :
    aluCommit o a b ra (eraseTrace s) out = eraseTrace (aluCommit o a b ra s out) := by
  cases out <;> rfl

theorem aluStep_eraseTrace (o : Opcode) (op : Byte → Byte → AluOut) (a b : Byte) (s : State) :
    aluStep o op a b (eraseTrace s) = eraseTrace (aluStep o op a b s) := by
  refine withReg_eraseTrace o a (some b) s fun ra => ?_
  cases regIndex b with
  | none => rfl
  | some rb => exact aluCommit_eraseTrace o a b ra s _

/-- R178: no instruction's meaning reads the trace, or whether it is enabled. -/
theorem exec_eraseTrace {i : Instr} {s t : State} (h : exec i s = .next t) :
    exec i (eraseTrace s) = .next (eraseTrace t) := by
  cases i with
  | hlt | jmp _ => cases h; rfl
  | ldi _ _ | prn _ => cases h; exact congrArg Host.Outcome.next (withReg_eraseTrace _ _ _ s fun _ => rfl)
  | push a => cases h; exact congrArg Host.Outcome.next (withReg_eraseTrace _ _ _ s fun r => pushReg_eraseTrace a r s)
  | pop a => cases h; exact congrArg Host.Outcome.next (withReg_eraseTrace _ _ _ s fun r => popReg_eraseTrace a r s)
  | jeq _ | jne _ =>
    cases h; exact congrArg Host.Outcome.next (withReg_eraseTrace _ _ _ s fun r => branchReg_eraseTrace _ _ r s)
  | cmp a b | add a b | sub a b | mul a b | div a b | mod a b =>
    cases h; exact congrArg Host.Outcome.next (aluStep_eraseTrace _ _ a b s)

/-- R178: a cycle reads the trace and its switch in the trace sample alone, and what that adds is erased. -/
theorem step_eraseTrace {s t : State} (h : step s = .next t) : step (eraseTrace s) = .next (eraseTrace t) := by
  have hfetch : fetch (eraseTrace s) = fetch s := rfl
  cases hrun : s.status with
  | halted =>
    rw [step_of_halted hrun] at h
    cases h
    exact step_of_halted hrun
  | running =>
    cases hf : fetch s with
    | error r =>
      rw [step_of_error hrun hf] at h
      cases h
      exact step_of_error hrun (hfetch.trans hf)
    | ok i =>
      rw [step_of_ok hrun hf] at h
      rw [step_of_ok (s := eraseTrace s) hrun (hfetch.trans hf), sampleTrace_eraseTrace]
      exact exec_eraseTrace h

end Sys2Proof.Machine
end

section
/-! PROOFS. The obligations of 60_exceptions.md. -/

namespace Sys2Proof.Machine

/-- Settles O33, from the inversion of a cycle's fault. -/
theorem faultsArePrecise : Obligations.FaultsArePrecise := by
  intro s t r hrun hnone h hr
  obtain ⟨ht, hp, -⟩ := step_eq_faulted hrun hnone h hr
  exact ⟨ht, hp⟩

/-- Settles O34, by who raises the fault: `Raises` gives the instruction's mnemonic for each kind and the report its opcode byte,
and the fetch raises two kinds only, without an opcode only at `pc` of 256 or more. -/
theorem faultKindsByOpcode : Obligations.FaultKindsByOpcode := by
  intro s t r hrun hnone h hr
  obtain ⟨-, -, ⟨i, hop, hraises⟩ | ⟨hkind, hpc⟩ | ⟨hkind, op, hop⟩⟩ := step_eq_faulted hrun hnone h hr
  case inl =>
    have raised {k : FaultKind} (hk : r.kind = k) : Raises i s k := hk ▸ hraises
    have byte {o : Opcode} (ho : i.opcode = o) : r.opcode = some o.byte := ho ▸ hop
    have mnemonic {o : Opcode} (ho : r.opcode = some o.byte) : i.opcode = o :=
      Opcode.byte_injective (Option.some.inj (hop.symm.trans ho))
    refine ⟨fun hk => raised hk, fun hk => raised hk, fun hk => (raised hk).imp byte byte, fun hk => byte (raised hk).1,
      fun hk => byte (raised hk).1, fun hk => ?overflow, fun hk => ?register, fun hno => ?absent⟩
    case overflow =>
      obtain ⟨hvariant, hmnemonic⟩ := raised hk
      exact ⟨hvariant, hmnemonic.imp byte (.imp byte byte)⟩
    case register =>
      obtain ⟨hhlt, hjmp⟩ := opcode_ne_of_not_wellFormed (raised hk)
      exact ⟨fun ho => hhlt (mnemonic ho), fun ho => hjmp (mnemonic ho)⟩
    case absent => simp [hop] at hno
  case inr.inl => simpa [hkind] using hpc
  case inr.inr => simp [hkind, hop]

/-- Settles O48: states that agree without their traces step to the next states of one common state, without theirs. -/
theorem traceHasNoEffect : Obligations.TraceHasNoEffect := by
  intro s s' t t' hss h h'
  rw [sameButTrace_iff] at hss ⊢
  have hsteps : Host.Outcome.next (eraseTrace t) = .next (eraseTrace t') :=
    calc Host.Outcome.next (eraseTrace t)
      _ = step (eraseTrace s) := (step_eraseTrace h).symm
      _ = step (eraseTrace s') := by rw [hss]
      _ = .next (eraseTrace t') := step_eraseTrace h'
  exact Host.Outcome.next.inj hsteps

/-- Settles O49: the sample reads three addresses through the address decoder, which selects no cell from 256 on. -/
theorem traceSampleShowsPcBytesAndRegisters : Obligations.TraceSampleShowsPcBytesAndRegisters := by
  intro s
  rw [traceSample, memRead_eq, memRead_eq, memRead_eq]

end Sys2Proof.Machine
end

section
/-! PROOFS. What a line of a listing is read as (R80, R195): the white space and comment around it, the literal, the line's byte. -/

namespace Sys2Proof.Machine

/-- R80: the characters of binary digits. -/
def binaryDigits (digits : List Bool) : List Char := digits.map fun d => if d then '1' else '0'

theorem length_binaryDigits (digits : List Bool) : (binaryDigits digits).length = digits.length := List.length_map _

theorem mem_binaryDigits {digits : List Bool} {c : Char} (hc : c ∈ binaryDigits digits) : c = '0' ∨ c = '1' := by
  obtain ⟨d, -, rfl⟩ := List.mem_map.mp hc
  cases d with
  | false => exact .inl rfl
  | true => exact .inr rfl

theorem dropWhile_isWhitespace_eq_self {line : List Char} (h : ∀ c ∈ line, c.isWhitespace = false) :
    line.dropWhile Char.isWhitespace = line := by
  cases line with
  | nil => rfl
  | cons c cs => exact List.dropWhile_cons_of_neg (by simp [h c List.mem_cons_self])

/-- R195: a line without white space and without a comment is read as it stands. -/
theorem stripLine_eq_self {line : List Char} (hcomment : ∀ c ∈ line, c ≠ '#') (hspace : ∀ c ∈ line, c.isWhitespace = false) :
    stripLine line = line := by
  have htake : line.takeWhile (fun c => c != '#') = line :=
    List.takeWhile_eq_self_iff.mpr fun c hc => bne_iff_ne.mpr (hcomment c hc)
  have hreverse : ∀ c ∈ line.reverse, c.isWhitespace = false := fun c hc => hspace c (List.mem_reverse.mp hc)
  rw [stripLine, htake, dropWhile_isWhitespace_eq_self hspace, dropWhile_isWhitespace_eq_self hreverse, List.reverse_reverse]

theorem stripLine_binaryDigits (digits : List Bool) : stripLine (binaryDigits digits) = binaryDigits digits := by
  refine stripLine_eq_self (fun c hc => ?_) (fun c hc => ?_) <;> rcases mem_binaryDigits hc with rfl | rfl <;> decide

/-- R195: binary digits are read most significant first. -/
theorem binaryValue_binaryDigits (digits : List Bool) (acc : Nat) :
    binaryValue acc (binaryDigits digits) = some (digits.foldl (fun n d => 2 * n + d.toNat) acc) := by
  induction digits generalizing acc with
  | nil => rfl
  | cons d ds ih =>
    cases d with
    | false => exact ih (2 * acc)
    | true => exact ih (2 * acc + 1)

theorem binaryValue_of_not_digit {chars : List Char} (h : ∃ c ∈ chars, c ≠ '0' ∧ c ≠ '1') (acc : Nat) :
    binaryValue acc chars = none := by
  obtain ⟨c, hc, h0, h1⟩ := h
  induction chars generalizing acc with
  | nil => cases hc
  | cons d ds ih =>
    rcases List.mem_cons.mp hc with rfl | hc
    · simp [binaryValue, h0, h1]
    · simp [binaryValue, fun acc => ih acc hc]

/-- C4, D23: one to eight binary digits are a literal. -/
theorem parseLiteral_binaryDigits {digits : List Bool} (hpos : 1 ≤ digits.length) (hlen : digits.length ≤ 8) :
    parseLiteral (binaryDigits digits) = some (BitVec.ofNat 8 (digits.foldl (fun n d => 2 * n + d.toNat) 0)) := by
  rw [parseLiteral, length_binaryDigits, if_pos ⟨hpos, hlen⟩, binaryValue_binaryDigits, Option.map_some]

theorem parseLiteral_of_length_gt {chars : List Char} (h : 8 < chars.length) : parseLiteral chars = none :=
  if_neg fun ⟨_, hle⟩ => Nat.not_le.mpr h hle

theorem parseLiteral_of_not_digit {chars : List Char} (h : ∃ c ∈ chars, c ≠ '0' ∧ c ≠ '1') : parseLiteral chars = none := by
  rw [parseLiteral, binaryValue_of_not_digit h, Option.map_none, ite_self]

/-- R195: a literal is the byte of its line. -/
theorem readListing_singleton {line : List Char} {v : Byte} (h : parseLiteral (stripLine line) = some v) :
    readListing [line] = .ok [v] := by
  have hne : stripLine line ≠ [] := fun hnil => by simp [hnil, parseLiteral] at h
  simp [readListing, hne, h]

/-- R195: a line that holds something but no literal fails, whatever lines follow it. -/
theorem readListing_cons_of_bad {line : List Char} (hne : stripLine line ≠ []) (h : parseLiteral (stripLine line) = none)
    (rest : List (List Char)) : readListing (line :: rest) = .error (.badLine line) := by
  simp [readListing, hne, h]

end Sys2Proof.Machine
end

section
/-! PROOFS. The legal states and the load operation: what a load that fits leaves is legal, and so is what a failed one leaves. -/

namespace Sys2Proof.Machine

/-- R34, R190: under legal parameters the state after a load that fits is legal. -/
theorem loaded_inv {p : Params} (hp : Params.legal p = true) {bytes : List Byte} (h : bytes.length ≤ 256) : (loaded p bytes).Inv where
  params_legal := hp
  mem_wf := loaded_mem_wf p h
  pc_range := Nat.zero_le _
  sp_range := le_rfl
  flags_range := (Bool.and_eq_true_iff.mp hp).2
  reason_status := iff_of_true rfl rfl
  report_pc := fun _ hr => nomatch hr
  output_form := fun _ => ⟨[], rfl⟩
  trace_quiet := fun _ => rfl

/-- R195: a LoadError leaves a legal state legal, RUNNING or HALTED: the clauses on the report and the output are for other reports. -/
theorem State.Inv.faulted_of_loadError {s : State} {r : FaultReport} (hs : s.Inv) (hkind : r.kind = .loadError) :
    (Machine.faulted s r).Inv :=
  { hs with
    reason_status := by simp
    report_pc := by
      intro r' hr' hother
      obtain rfl : r = r' := HaltReason.fault.inj hr'
      exact absurd hkind hother
    output_form := fun hload => absurd ⟨r, rfl, hkind⟩ hload }

end Sys2Proof.Machine
end

section
/-! PROOFS. The obligations of 70_reset_and_hazards.md. -/

namespace Sys2Proof.Machine

/-- Settles O38: a load that fits resets everything under the parameters of the state before, any other is a LoadError. -/
theorem loadKeepsTheLegalStates : Obligations.LoadKeepsTheLegalStates := by
  intro s bytes hs
  rcases Nat.lt_or_ge 256 bytes.length with hgt | hle
  · exact load_of_gt s hgt ▸ hs.faulted_of_loadError rfl
  · exact load_of_le s hle ▸ loaded_inv hs.params_legal hle

/-- Settles O41: binary digits hold nothing to strip and are a literal; more than eight characters, or one that is no digit, are
none, and a line that is stripped to either is not blank. -/
theorem listingLineIsABinaryLiteral : Obligations.ListingLineIsABinaryLiteral := by
  refine ⟨fun digits hpos hlen => ?digits, fun line hlen => ?long, fun line ⟨c, hc, hother⟩ => ?other⟩
  case digits =>
    have hliteral := parseLiteral_binaryDigits hpos hlen
    rw [← stripLine_binaryDigits] at hliteral
    exact readListing_singleton hliteral
  case long =>
    exact readListing_cons_of_bad (List.ne_nil_of_length_pos (by omega)) (parseLiteral_of_length_gt hlen) []
  case other =>
    exact readListing_cons_of_bad (List.ne_nil_of_mem hc) (parseLiteral_of_not_digit ⟨c, hc, hother⟩) []

/-- Settles O40: such a load is a LoadError with the byte count, and HALTED stays where it is for any number of steps. -/
theorem loadOfTooManyBytesHalts : Obligations.LoadOfTooManyBytesHalts := by
  intro s bytes hgt
  have hload := load_of_gt s hgt
  exact ⟨hload, run_of_halted (congrArg State.status hload)⟩

end Sys2Proof.Machine
end

section
/-! PROOFS. The obligation of 60_exceptions.md that speaks of every step of every state. -/

namespace Sys2Proof.Machine

/-- Settles O9: HALTED answers the state itself, a fetch's fault is a next state, and so is every outcome of an instruction. -/
theorem everyStepHasANextState : Obligations.EveryStepHasANextState :=
  step_next

end Sys2Proof.Machine
end
